-- ==== Sys2Proof/Word.lean ====
section
/-! DEFINITION. The words of the IR-Gate codec: the octet of the two streams, its seven-bit magnitude field, and the
two polarities (spec/00_scope.md R7, R9; spec/30_encoding.md R51). Everything else is a natural number (R5, R7). -/

namespace Sys2Proof

/-- One octet of RX or TX; bit 0 is the least significant bit (R7, R34). -/
abbrev Byte := BitVec 8

/-- The magnitude field `mag7` of a wire byte, bits 7:1, in ticks of 16 us (R8, R51). -/
abbrev Mag7 := BitVec 7

/-- The polarity of a wire byte, of a run and of a duration (R9, R51): pulse is mark, space is gap. -/
inductive Polarity where
  | pulse
  | space
  deriving DecidableEq, Repr

end Sys2Proof
end

