-- ==== Sys2Proof/Syntax.lean ====
section
/-! DEFINITION. The instructions of the codec: the seven wire-byte classes of spec/opcode_table.json (R59). The first
three are what DEC reads, the last four what ENC sends; the bits of a class of one direction may also be those of a
class of the other (R59; log entry 8). -/

namespace Sys2Proof

/-- One constructor per row of spec/opcode_table.json. -/
inductive Instr where
  /-- STROBE, `00000000`, received: a Pulse octet of duration 0. -/
  | strobe
  /-- P, `mmmmmmm0`, received: a Pulse octet of `mag7` ticks (1 to 127, 0 being STROBE). -/
  | p (mag7 : Mag7)
  /-- S, `mmmmmmm1`, received: a Space octet of `mag7` ticks (0 to 127). -/
  | s (mag7 : Mag7)
  /-- MAXP, `11111110`, sent: the maximal Pulse octet (R115). -/
  | maxp
  /-- MAXS, `11111111`, sent: the maximal Space octet (R115). -/
  | maxs
  /-- REMP, `rrrrrrr0`, sent: the remainder Pulse octet of `r` ticks (R116). -/
  | remp (r : Mag7)
  /-- REMS, `rrrrrrr1`, sent: the remainder Space octet of `r` ticks (R116). -/
  | rems (r : Mag7)
  deriving DecidableEq, Repr

end Sys2Proof
end

