-- ==== Sys2Proof/WellFormed.lean ====
section
/-! DEFINITION. Which instructions are well formed: the ranges R59 gives the fields of each class. -/

namespace Sys2Proof

/-- R59: P has 127 values "after STROBE" has been taken out, and a remainder octet has r = 1 .. 127. -/
def Instr.wellFormed : Instr → Bool
  | .strobe => true
  | .p mag7 => mag7 != 0#7
  | .s _ => true
  | .maxp => true
  | .maxs => true
  | .remp r => r != 0#7
  | .rems r => r != 0#7

end Sys2Proof
end

