-- ==== Sys2Proof/Decode.lean ====
section
/-! DEFINITION. The decoder of octets (the receive rows of R59, tried from the top, first match wins), total on any
list of octets and rejecting by name, and after it the encoder, written from the same table. -/

namespace Sys2Proof

/-- Why no instruction could be read. No octet VALUE is ever rejected (R60). -/
inductive Reject where
  /-- The list of octets is empty. -/
  | noOctet
  deriving DecidableEq, Repr

/-- `mag7(b) = b[7:1]` (R8). -/
def magField (b : Byte) : Mag7 := b.extractLsb' 1 7

/-- The receive side of R59: STROBE (mask 0xFF, match 0x00), then P (mask 0x01, match 0x00), then S (mask 0x01, match
0x01); together they cover all 256 octets. -/
def decodeOctet (b : Byte) : Instr :=
  if b &&& 0xFF#8 = 0x00#8 then .strobe
  else if b &&& 0x01#8 = 0x00#8 then .p (magField b)
  else .s (magField b)

/-- Decoding a stream: every octet is a complete instruction (R36), so one octet is taken and the rest is left. -/
def decode : List Byte → Except Reject (Instr × List Byte)
  | [] => .error .noOctet
  | b :: rest => .ok (decodeOctet b, rest)

/-- The octet of an instruction (R59: the pattern column, receive and transmit rows). -/
def encode : Instr → Byte
  | .strobe => 0x00#8
  | .p mag7 => mag7 ++ 0#1
  | .s mag7 => mag7 ++ 1#1
  | .maxp => 0xFE#8
  | .maxs => 0xFF#8
  | .remp r => r ++ 0#1
  | .rems r => r ++ 1#1

/-- The polarity of a class (R59: bit 0 of its pattern). -/
def Instr.polarity : Instr → Polarity
  | .strobe => .pulse
  | .p _ => .pulse
  | .s _ => .space
  | .maxp => .pulse
  | .maxs => .space
  | .remp _ => .pulse
  | .rems _ => .space

/-- The length of a class in ticks (R59: bits 7:1 of its pattern). -/
def Instr.magnitude : Instr → Mag7
  | .strobe => 0#7
  | .p mag7 => mag7
  | .s mag7 => mag7
  | .maxp => 127#7
  | .maxs => 127#7
  | .remp r => r
  | .rems r => r

/-- The receive class of an instruction's octet: a transmitted class is, received, "an ordinary P octet" or "an
ordinary S octet" (R59, notes of MAXP and MAXS in the opcode table). A receive class is its own. -/
def Instr.asReceived : Instr → Instr
  | .strobe => .strobe
  | .p mag7 => .p mag7
  | .s mag7 => .s mag7
  | .maxp => .p 127#7
  | .maxs => .s 127#7
  | .remp r => .p r
  | .rems r => .s r

/-- The transmit side of R59: the class of an octet ENC produces; 0x00 and 0x01 are never produced (R61). A remainder
octet of 127 ticks has the bits of the maximal octet, and is read as that one (R59). -/
def classifySent (b : Byte) : Option Instr :=
  if b &&& 0xFF#8 = 0xFE#8 then some .maxp
  else if b &&& 0xFF#8 = 0xFF#8 then some .maxs
  else if magField b = 0#7 then none
  else if b &&& 0x01#8 = 0x00#8 then some (.remp (magField b))
  else some (.rems (magField b))

/-- The octet whose bits are the low `nbits` bits of `w`, the bits above them zero. -/
def tableOctet (nbits w : Nat) : Byte := BitVec.ofNat 8 (w % 2 ^ nbits)

/-- The instruction the decoder reads from an octet given as a number. The decoder is DEC's, so a word of a transmit
row is read as its receive class (log entry 8). More than eight bits are no instruction of this block. -/
def decodeTableWord (nbits w : Nat) : Option Instr :=
  if nbits ≤ 8 then
    match decode [tableOctet nbits w] with
    | .ok (i, _) => some i
    | .error _ => none
  else none

end Sys2Proof
end

