-- ==== Sys2Proof/Config.lean ====
section
/-! DEFINITION. What an implementation fixes: the SHAPE of the record of hard-wired constants (its values stand in
Sys2Proof/Machine/Constants.lean, where a repair can mend one), and the three parameters the spec leaves open
(spec/00_scope.md R4, R5, R6). No free value is needed: every choice the spec leaves to the environment is data in
State (log entry 1). -/

namespace Sys2Proof

/-- The hard-wired constants K_* of R4 (decision D8: one record, so that one of them can be changed without touching
a rule). -/
structure Constants where
  /-- K_POLMASK, mask of the polarity bit. -/
  polMask : Byte
  /-- K_MAGMASK, mask of the magnitude bits. -/
  magMask : Byte
  /-- K_DECMUL, microseconds per unit of `byte & 0xFE`. -/
  decMul : Nat
  /-- K_QTHR, quirk threshold in microseconds, compared with strict `>`. -/
  quirkThreshold : Nat
  /-- K_QOVR, quirk override in microseconds. -/
  quirkOverride : Nat
  /-- K_TICK, microseconds per encoder tick. -/
  tick : Nat
  /-- K_ROUND, rounding addend of the tick conversion. -/
  round : Nat
  /-- K_SPLIT, divisor and modulus of the tick split. -/
  split : Nat
  /-- K_BATCH, largest number of maximal octets in one write. -/
  batch : Nat
  /-- K_MAXP, maximal wire byte for Pulse. -/
  maxPulse : Byte
  /-- K_MAXS, maximal wire byte for Space. -/
  maxSpace : Byte
  deriving DecidableEq, Repr

/-- SUBMS (R160): what a deadline of 1 to 999 microseconds does. -/
inductive Subms where
  /-- `TimedOut` is admissible. -/
  | immediate
  /-- `TimedOut` is not admissible. -/
  | forever
  /-- Both behaviours are admitted (the spec's default). -/
  | either
  deriving DecidableEq, Repr

/-- The open parameters of R6, which the model takes as arguments: they stand in State, and no step changes them. -/
structure Params where
  /-- SUBMS (R160). -/
  subms : Subms
  /-- ACC_W (R12): the width of ACC in a finite realisation; `none` is the unbounded ACC of R5. -/
  accW : Option Nat
  /-- DUR_W (R113): the width of a duration in a finite realisation; `none` is the unbounded duration of R5. -/
  durW : Option Nat
  deriving DecidableEq, Repr

/-- R5 and R160: unbounded widths, and SUBMS `either`, are what the spec takes where nothing else is said. -/
def Params.default : Params := { subms := .either, accW := none, durW := none }

/-- R12: "ACC_W must be at least 17". -/
abbrev Params.wf (p : Params) : Prop := ∀ w, p.accW = some w → 17 ≤ w

end Sys2Proof
end

