-- ==== Sys2Proof/Machine/State.lean ====
section
/-! DEFINITION. The state of the codec, as plain data, and the state after reset; the reasons a step can stop. What
each field is, its rule and its reset value stand in INVENTORY.md under State. -/

namespace Sys2Proof.Machine

/-- The register POL (R11): no run since reset, or the polarity of the run being accumulated. -/
inductive Pol where
  | unset
  | pulse
  | space
  deriving DecidableEq, Repr

/-- The event DEC returns (R54, format EV). -/
inductive Event where
  | pulse (durationUs : Nat)
  | space (durationUs : Nat)
  | timeout
  deriving DecidableEq, Repr

/-- The two errors that can reach a caller (R140), without payload (R144). -/
inductive ChannelError where
  | channelReadError
  | channelWriteError
  deriving DecidableEq, Repr

/-- What one finished call returned to the host (R70, R110). -/
inductive Result where
  /-- `decode_next` returned an event. -/
  | event (e : Event)
  /-- A call raised an error in place of its result. -/
  | error (e : ChannelError)
  /-- `encode` returned ok. -/
  | ok
  deriving DecidableEq, Repr

/-- The answers of `RxTryRead` (R37). -/
inductive ReadAnswer where
  | byte (b : Byte)
  | wouldBlock
  | error
  deriving DecidableEq, Repr

/-- The answers of `TxWrite` (R38). -/
inductive WriteAnswer where
  | written (n : Nat)
  | wouldBlock
  | interrupted
  | error
  deriving DecidableEq, Repr

/-- The answers of `WaitReady` (R39). -/
inductive WaitAnswer where
  | ready
  | timedOut
  | interrupted
  | error
  deriving DecidableEq, Repr

/-- One answer of the environment, tagged with the primitive it answers (D9). -/
inductive Answer where
  | read (a : ReadAnswer)
  | write (a : WriteAnswer)
  | wait (a : WaitAnswer)
  deriving DecidableEq, Repr

/-- What the host can ask of the block: its reset input (R170) and its two calls (R70, R110). -/
inductive HostCall where
  | reset
  | decodeNext (deadlineUs : Nat)
  | encode (durations : List Nat)
  deriving DecidableEq, Repr

/-- The two phases of a `decode_next` call (R72). -/
inductive DecPhase where
  | read
  | wait
  deriving DecidableEq, Repr

/-- Which octets a `write_all` is for: a batch of maximal octets (R115) or the remainder octet (R116). -/
inductive SendKind where
  | maximal
  | remainder
  deriving DecidableEq, Repr

/-- Where in the text of R112 and R117 an `encode` call stands. -/
inductive EncPhase where
  /-- At the head of the loop over durations. -/
  | seq
  /-- In the loop over maximal octets, with F > 0: the next batch is to be formed (R115). -/
  | maxBatch
  /-- The remainder octet is to be formed, with Rm > 0 (R116). -/
  | rem
  /-- In `write_all`, before the next `TxWrite` (R117). -/
  | write (k : SendKind)
  /-- In `wait_writable` (R117). -/
  | waitWritable (k : SendKind)
  deriving DecidableEq, Repr

/-- The working values of one `encode` call (R14), its operand, and where it stands. -/
structure EncCall where
  /-- The operand (R55, R110). -/
  durations : List Nat
  /-- Index of the duration being serialized; between two durations the index of the next, and after the last the
  length (DESIGN CHOICE, log entry 18, as are the stale values of p, T, F, Rm and n there). -/
  i : Nat
  /-- Its polarity bit. -/
  p : Polarity
  /-- T, its length in ticks. -/
  t : Nat
  /-- F, the maximal octets still to send; the batch being written counts among them (R14, R112). -/
  f : Nat
  /-- Rm, the remainder. -/
  rm : Nat
  /-- n, the size of the batch being written; 1 while the remainder octet is written (DESIGN CHOICE, log entry 17). -/
  n : Nat
  /-- The octets of the current `write_all` that `TxWrite` has not accepted yet. -/
  bs : List Byte
  phase : EncPhase
  deriving DecidableEq, Repr

/-- The call in progress: at most one (R41, R43), and its working values, which exist inside the call only (R14). -/
inductive Call where
  | idle
  | decode (deadlineUs : Nat) (phase : DecPhase)
  | encode (e : EncCall)
  deriving DecidableEq, Repr

/-- The state of the block, with the two streams, the results returned, and the environment's future moves. -/
structure State where
  /-- The open parameters (R6); fixed for a machine. -/
  params : Params
  /-- POL (R11). -/
  pol : Pol
  /-- ACC (R12), in microseconds. -/
  acc : Nat
  /-- The call in progress. -/
  call : Call
  /-- What the host will ask, in order (R43: one call at a time). -/
  hostCalls : List HostCall
  /-- What the environment will answer, in order (R71, R111). -/
  answers : List Answer
  /-- The octets taken from RX since reset, oldest first (model-only history). -/
  rxTaken : List Byte
  /-- RXPOS (R17), a model-only cursor. -/
  rxpos : Nat
  /-- The octets TX has accepted, oldest first (R32). -/
  tx : List Byte
  /-- TXPOS (R17), a model-only cursor. -/
  txpos : Nat
  /-- What the calls finished since reset returned, oldest first (R30 path EV, D23). -/
  results : List Result
  deriving DecidableEq, Repr

/-- The reasons the machine stops. -/
inductive Fault where
  /-- Raised by a step that asks a primitive when `answers` is empty (D23: "stuck, not final"). Safe: the model goes
  on nowhere where the hardware would wait. -/
  | stuck
  /-- Raised by DEC.EXTEND in a finite-width realisation when `ACC + dur(b) >= 2^ACC_W` (R12). Safe: the spec asks for
  the fault, "never a wrap or a saturation". -/
  | accOverflow
  deriving DecidableEq, Repr

/-- The reasons a step has no meaning. -/
inductive Refusal where
  /-- Raised by `exec` for an instruction that has no meaning yet. Safe. -/
  | notModelled (mnemonic : String)
  /-- Raised by the meaning of an octet class when no unit is in the phase that handles such an octet: a received
  octet outside the READ phase of a `decode_next` call, or a sent octet that is not the one ENC is about to send.
  Safe: overlapping use "has no step" (R43, D22). -/
  | octetOutOfTurn
  /-- Raised by a step whose next answer is not one the primitive asked can give: one of another primitive, `Written`
  of more octets than were offered, or `TimedOut` where it is not admissible (R37 to R39, R77, R111). Safe: such an
  environment is excluded by the spec. -/
  | inadmissibleAnswer
  /-- Raised by the start of an `encode` call holding a duration that a finite DUR_W cannot hold (R5, D14). Safe: the
  spec makes such a call impossible by type. -/
  | durationTooWide
  deriving DecidableEq, Repr

/-- The state right after reset (R21, R170): POL Unset, ACC 0 (D5), cursors 0 (D7), no call in progress, nothing sent
or returned, and an environment that has nothing listed; the parameters at the spec's defaults (R5, R160). -/
def State.reset : State :=
  { params := Params.default
    pol := .unset
    acc := 0
    call := .idle
    hostCalls := []
    answers := []
    rxTaken := []
    rxpos := 0
    tx := []
    txpos := 0
    results := [] }

end Sys2Proof.Machine
end

