-- ==== Sys2Proof/Machine/Flags.lean ====
section
/-! DEFINITION. The block has no flags and no condition codes (R16). "The one datum that behaves like a flag" is
whether a run has been started, carried by POL; it is read here, in one place. -/

namespace Sys2Proof.Machine

/-- The polarity of the run in progress, or nothing while POL is Unset (R16, R20). -/
def Pol.run : Pol → Option Polarity
  | .unset => none
  | .pulse => some .pulse
  | .space => some .space

/-- The value POL takes when a run of a polarity starts (R80, R81). -/
def Pol.ofPolarity : Polarity → Pol
  | .pulse => .pulse
  | .space => .space

end Sys2Proof.Machine
end

