-- ==== Sys2Proof/Machine/Constants.lean ====
section
/-! DEFINITION. The values of the hard-wired constants (spec/00_scope.md R4: "the value column is normative"). They
stand here, and not in Config.lean, so that a repair can mend one: the spec calls its literals unaudited (C2, U5, U2;
log entry 14). -/

namespace Sys2Proof.Machine

/-- The constants K_* at the values of R4. -/
def K : Constants :=
  { polMask := 0x01#8
    magMask := 0xFE#8
    decMul := 8
    quirkThreshold := 10000
    quirkOverride := 100000
    tick := 16
    round := 8
    split := 128
    batch := 16
    maxPulse := 0xFE#8
    maxSpace := 0xFF#8 }

end Sys2Proof.Machine
end

