-- ==== Sys2Proof/Machine/Operands.lean ====
section
/-! DEFINITION. The operands: field extraction from a received octet (R56, R78), the octets ENC forms (R57, R58), and
the conversion of a duration (R113, R114). -/

namespace Sys2Proof.Machine

/-- `p = b & 1` (R56, R78): 0 is Pulse, 1 is Space. -/
def polarityOf (b : Byte) : Polarity :=
  if b &&& K.polMask = 0#8 then .pulse else .space

/-- `d = (b & 0xFE) * 8` microseconds (R56, R78). -/
def durationOf (b : Byte) : Nat := (b &&& K.magMask).toNat * K.decMul

/-- The polarity bit as a number (R51). -/
def polarityBit : Polarity → Nat
  | .pulse => 0
  | .space => 1

/-- `0xFE | p`, the maximal octet (R58, R115). -/
def maximalOctet : Polarity → Byte
  | .pulse => K.maxPulse
  | .space => K.maxSpace

/-- `(Rm << 1) | p`, the remainder octet (R57, R116). -/
def remainderOctet (rm : Nat) (p : Polarity) : Byte := BitVec.ofNat 8 ((rm <<< 1) ||| polarityBit p)

/-- `p = i % 2` (R112): Pulse for an even index, Space for an odd one. -/
def polarityOfIndex (i : Nat) : Polarity := if i % 2 = 0 then .pulse else .space

/-- ENC.TICKS (R113): `T = (dur + 8) / 16`, the sum exact. -/
def ticks (dur : Nat) : Nat := (dur + K.round) / K.tick

/-- ENC.SPLIT (R114): `F = T / 128`. -/
def fullUnits (t : Nat) : Nat := t / K.split

/-- ENC.SPLIT (R114): `Rm = T % 128`. -/
def remainder (t : Nat) : Nat := t % K.split

/-- Whether a duration can be given in a realisation with DUR_W bits (R5); any can where durations are unbounded. -/
def durationFits (p : Params) (dur : Nat) : Bool :=
  match p.durW with
  | none => true
  | some w => decide (dur < 2 ^ w)

/-- Whether a length fits ACC: always where ACC is unbounded, below `2^ACC_W` in a finite realisation (R12). -/
def accFits (p : Params) (v : Nat) : Bool :=
  match p.accW with
  | none => true
  | some w => decide (v < 2 ^ w)

/-- Whether `TimedOut` is an admissible answer of the decoder's wait (R77, R160): never for a deadline of 0, always
from 1000 us on, and as SUBMS says between. -/
def timeOutAdmissible (p : Params) (deadlineUs : Nat) : Bool :=
  if deadlineUs = 0 then false
  else if 1000 ≤ deadlineUs then true
  else decide (p.subms ≠ .forever)

end Sys2Proof.Machine
end

