-- ==== Sys2Proof/Machine/Ops.lean ====
section
/-! DEFINITION. The named operations over the state: updates of the registers and streams, the end of a call with a
result, raising an error (the block's only "exception entry", R152, R154; there is no return from one, R155), the
three channel primitives, and the reset of the block. -/

namespace Sys2Proof.Machine

/-- The outcome of a step of this machine. -/
abbrev Out := Host.Outcome State Fault Refusal

/-! ### Updates -/

/-- `ACC <- acc; POL <- pol`, together (R7). -/
def State.withDec (s : State) (acc : Nat) (pol : Pol) : State := { s with acc := acc, pol := pol }

/-- The call in progress is, or stands at, `c`. -/
def State.withCall (s : State) (c : Call) : State := { s with call := c }

/-- The environment's answers still to come. -/
def State.withAnswers (s : State) (as : List Answer) : State := { s with answers := as }

/-- What the host has still to ask. -/
def State.withHostCalls (s : State) (cs : List HostCall) : State := { s with hostCalls := cs }

/-- One octet has been consumed from RX (R31; RXPOS advances by exactly 1, R17). -/
def State.takeOctet (s : State) (b : Byte) : State :=
  { s with rxTaken := s.rxTaken ++ [b], rxpos := s.rxpos + 1 }

/-- Octets have been accepted by TX, in order (R32; TXPOS, R17). -/
def State.sendOctets (s : State) (bs : List Byte) : State :=
  { s with tx := s.tx ++ bs, txpos := s.txpos + bs.length }

/-- An `encode` call begins: TXPOS counts from here (R17). -/
def State.zeroTxpos (s : State) : State := { s with txpos := 0 }

/-- The call in progress ends and returns `r` to its caller (`emit`, `return`, `raise` of R7). -/
def State.finish (s : State) (r : Result) : State := { s with results := s.results ++ [r], call := .idle }

/-- `emit E` (R7). -/
def State.emit (s : State) (e : Event) : State := s.finish (.event e)

/-- `raise X` (R7), the one way an error is taken: the call ends with the error in place of a result; nothing is
saved, ACC and POL stand, nothing sent is retracted (R152, R154). -/
def State.raise (s : State) (e : ChannelError) : State := s.finish (.error e)

/-- The reset of the block (R170 to R172): POL Unset and ACC 0, cursors 0; the channel is not touched, so the answers
still to come and the octets already sent stay. Results and consumed octets count from the reset. -/
def State.resetBlock (s : State) : State :=
  { s with pol := .unset, acc := 0, call := .idle, rxTaken := [], rxpos := 0, txpos := 0, results := [] }

/-! ### The channel primitives -/

/-- What asking a primitive gives: an answer, with the state after it; no answer listed; or one it cannot give. -/
inductive Asked (α : Type) where
  | answered (a : α) (s : State)
  | stuck
  | inadmissible
  deriving DecidableEq, Repr

/-- Going on from an answer; without one, the step stops by name. -/
def Asked.andThen {α : Type} (x : Asked α) (k : α → State → Out) : Out :=
  match x with
  | .answered a s => k a s
  | .stuck => .fault .stuck
  | .inadmissible => .refused .inadmissibleAnswer

/-- `RxTryRead()` (R37): an octet handed over is removed from RX. -/
def rxTryRead (s : State) : Asked ReadAnswer :=
  match s.answers with
  | [] => .stuck
  | .read (.byte b) :: rest => .answered (.byte b) ((s.withAnswers rest).takeOctet b)
  | .read .wouldBlock :: rest => .answered .wouldBlock (s.withAnswers rest)
  | .read .error :: rest => .answered .error (s.withAnswers rest)
  | .write _ :: _ => .inadmissible
  | .wait _ :: _ => .inadmissible

/-- `TxWrite(bs)` (R38): `Written(n)` appends the first n octets to TX; a count of 0 is treated as `WouldBlock`, and a
count beyond the octets offered is no answer. -/
def txWrite (bs : List Byte) (s : State) : Asked WriteAnswer :=
  match s.answers with
  | [] => .stuck
  | .write (.written n) :: rest =>
    if n = 0 then .answered .wouldBlock (s.withAnswers rest)
    else if n ≤ bs.length then .answered (.written n) ((s.withAnswers rest).sendOctets (bs.take n))
    else .inadmissible
  | .write .wouldBlock :: rest => .answered .wouldBlock (s.withAnswers rest)
  | .write .interrupted :: rest => .answered .interrupted (s.withAnswers rest)
  | .write .error :: rest => .answered .error (s.withAnswers rest)
  | .read _ :: _ => .inadmissible
  | .wait _ :: _ => .inadmissible

/-- `WaitReady(dir, dl)` (R39): it moves no data; `TimedOut` is an answer only where `mayTimeOut` (R77, R111). -/
def waitReady (mayTimeOut : Bool) (s : State) : Asked WaitAnswer :=
  match s.answers with
  | [] => .stuck
  | .wait .timedOut :: rest => if mayTimeOut then .answered .timedOut (s.withAnswers rest) else .inadmissible
  | .wait .ready :: rest => .answered .ready (s.withAnswers rest)
  | .wait .interrupted :: rest => .answered .interrupted (s.withAnswers rest)
  | .wait .error :: rest => .answered .error (s.withAnswers rest)
  | .read _ :: _ => .inadmissible
  | .write _ :: _ => .inadmissible

end Sys2Proof.Machine
end

