-- ==== Sys2Proof/Machine/Quirk.lean ====
section
/-! DEFINITION. QC, the quirk corrector and the zero normalisation (spec/41_quirk.md), kept as named, isolated
definitions (R105). -/

namespace Sys2Proof.Machine

/-- QC.QUIRK (R100): a Space run longer than 10000 us closed by an octet of duration 0 is reported as 100000 us. -/
def quirk (k : Polarity) (a d : Nat) : Nat :=
  if k = .space ∧ d = 0 ∧ K.quirkThreshold < a then K.quirkOverride else a

/-- QC.NORM (R101): a length of 0 is reported as 1. -/
def normalise (n : Nat) : Nat := if n = 0 then 1 else n

/-- `qc(k, a, d)` (R103): the quirk first, the normalisation second (R102). -/
def qc (k : Polarity) (a d : Nat) : Nat := normalise (quirk k a d)

end Sys2Proof.Machine
end

