-- ==== Sys2Proof/Machine/Decoder.lean ====
section
/-! DEFINITION. DEC (spec/40_decoder.md): what an octet does to the run in progress, and the WAIT phase. The READ
phase, which hands an octet to its instruction, is in Machine/Fetch.lean. -/

namespace Sys2Proof.Machine

/-- The event of a closed run (R81). -/
def Event.ofRun : Polarity → Nat → Event
  | .pulse, n => .pulse n
  | .space, n => .space n

/-- DEC.START (R80): the first run after reset begins; no event. -/
def decStart (p : Polarity) (d : Nat) (s : State) : State := s.withDec d (.ofPolarity p)

/-- DEC.CLOSE (R81): the run of polarity `k` ends and its event is returned; the octet already counts in the new run. -/
def decClose (k p : Polarity) (d : Nat) (s : State) : State :=
  (s.withDec d (.ofPolarity p)).emit (.ofRun k (qc k s.acc d))

/-- DEC.EXTEND (R82): the run grows; in a finite realisation a length that does not fit is a fault (R12). -/
def decExtend (d : Nat) (s : State) : Out :=
  if accFits s.params (s.acc + d) then .next (s.withDec (s.acc + d) s.pol) else .fault .accOverflow

/-- The dispatch of R79 over the two operands of an octet. -/
def decOperands (p : Polarity) (d : Nat) (s : State) : Out :=
  match s.pol.run with
  | none => .next (decStart p d s)
  | some k => if p ≠ k then .next (decClose k p d s) else decExtend d s

/-- `on_byte(b)` (R78, R79), inside the READ phase of a `decode_next` call and nowhere else (R43, R148). -/
def onByte (b : Byte) (s : State) : Out :=
  match s.call with
  | .decode _ .read => decOperands (polarityOf b) (durationOf b) s
  | .decode _ .wait => .refused .octetOutOfTurn
  | .idle => .refused .octetOutOfTurn
  | .encode _ => .refused .octetOutOfTurn

/-- The WAIT phase (R76, R77): `Ready` goes back to READ, `TimedOut` is DEC.TIMEOUT (R83: the run stays), `Interrupted`
waits again, `Error` is DEC.RDERR (R84). -/
def decWait (deadlineUs : Nat) (s : State) : Out :=
  (waitReady (timeOutAdmissible s.params deadlineUs) s).andThen fun a s' =>
    match a with
    | .ready => .next (s'.withCall (.decode deadlineUs .read))
    | .timedOut => .next (s'.emit .timeout)
    | .interrupted => .next (s'.withCall (.decode deadlineUs .wait))
    | .error => .next (s'.raise .channelReadError)

end Sys2Proof.Machine
end

