-- ==== Sys2Proof/Machine/Receive.lean ====
section
/-! DEFINITION. The meanings of the receive classes STROBE, P and S (R59, R79): "any octet" goes through the one
dispatch of `on_byte`. -/

namespace Sys2Proof.Machine

/-- STROBE (R79, R103): the octet 0x00. -/
def execStrobe (s : State) : Out := onByte (encode .strobe) s

/-- P (R79): a Pulse octet of `mag7` ticks. -/
def execP (mag7 : Mag7) (s : State) : Out := onByte (encode (.p mag7)) s

/-- S (R79): a Space octet of `mag7` ticks. -/
def execS (mag7 : Mag7) (s : State) : Out := onByte (encode (.s mag7)) s

end Sys2Proof.Machine
end

