-- ==== Sys2Proof/Machine/Encoder.lean ====
section
/-! DEFINITION. ENC (spec/42_encoder.md): the loop over durations, `write_all` and its wait. The two octet classes it
sends, which form a batch or the remainder octet, are instructions (Machine/Transmit.lean). -/

namespace Sys2Proof.Machine

/-- The working values at the start of a call (R15: index 0, polarity Pulse); the others are assigned before use. -/
def EncCall.start (durations : List Nat) : EncCall :=
  { durations := durations, i := 0, p := .pulse, t := 0, f := 0, rm := 0, n := 0, bs := [], phase := .seq }

/-- On to the next index (R112); an index is used up whether or not its duration sent an octet (R122). DESIGN CHOICE:
i advances in the step that ends a duration, so it is the length before ok is returned, and p, T, F, Rm and n keep the
values of the duration that has ended until the next is loaded (log entry 18). -/
def EncCall.nextIndex (e : EncCall) : EncCall := { e with i := e.i + 1, phase := .seq }

/-- The tests of R112 after the split and after each batch: more maximal octets, else a remainder octet, else done. -/
def EncCall.proceed (e : EncCall) : EncCall :=
  if 0 < e.f then { e with phase := .maxBatch }
  else if 0 < e.rm then { e with phase := .rem }
  else e.nextIndex

/-- ENC.SEQ, ENC.TICKS and ENC.SPLIT for one duration (R112 to R114). -/
def EncCall.load (e : EncCall) (dur : Nat) : EncCall :=
  { e with
    p := polarityOfIndex e.i
    t := ticks dur
    f := fullUnits (ticks dur)
    rm := remainder (ticks dur) }.proceed

/-- ENC.SEQ (R112): the next duration, or, after the last, the end of the call with ok. -/
def encSeq (e : EncCall) (s : State) : Out :=
  match e.durations[e.i]? with
  | some dur => .next (s.withCall (.encode (e.load dur)))
  | none => .next (s.finish .ok)

/-- The batch has been written: `F <- F - n` (R112, R115). -/
def EncCall.batchSent (e : EncCall) : EncCall := { e with f := e.f - e.n }

/-- After `write_all` returns (R112): a batch leaves F; the remainder octet is the last of its duration. -/
def EncCall.afterWrite (e : EncCall) : SendKind → EncCall
  | .maximal => e.batchSent.proceed
  | .remainder => e.nextIndex

/-- The first `n` octets offered have been accepted (R117): the rest is offered next, or `write_all` returns. -/
def EncCall.accepted (e : EncCall) (k : SendKind) (n : Nat) : EncCall :=
  if e.bs.length ≤ n then { e with bs := [] }.afterWrite k
  else { e with bs := e.bs.drop n, phase := .write k }

/-- ENC.WRITE (R117), one turn of the loop of `write_all`. -/
def encWrite (k : SendKind) (e : EncCall) (s : State) : Out :=
  if e.bs = [] then .next (s.withCall (.encode (e.afterWrite k)))
  else
    (txWrite e.bs s).andThen fun a s' =>
      match a with
      | .written n => .next (s'.withCall (.encode (e.accepted k n)))
      | .wouldBlock => .next (s'.withCall (.encode { e with phase := .waitWritable k }))
      | .interrupted => .next (s'.withCall (.encode { e with phase := .write k }))
      | .error => .next (s'.raise .channelWriteError)

/-- `wait_writable` (R117), one turn; `TimedOut` is never admissible in ENC (R111). -/
def encWaitWritable (k : SendKind) (e : EncCall) (s : State) : Out :=
  (waitReady false s).andThen fun a s' =>
    match a with
    | .ready => .next (s'.withCall (.encode { e with phase := .write k }))
    | .interrupted => .next (s'.withCall (.encode { e with phase := .waitWritable k }))
    | .error => .next (s'.raise .channelWriteError)
    | .timedOut => .refused .inadmissibleAnswer

end Sys2Proof.Machine
end

