-- ==== Sys2Proof/Machine/Transmit.lean ====
section
/-! DEFINITION. The meanings of the transmit classes MAXP, MAXS, REMP and REMS (R59). Inside an `encode` call that is
about to send such an octet, the octets are formed and handed to `write_all` (R115, R116). Inside the READ phase of a
`decode_next` call the same octet is received, and is "an ordinary P octet" or S octet (opcode table; R59). -/

namespace Sys2Proof.Machine

/-- ENC.MAXBATCH (R115): `n <- min(F, 16)`, and n maximal octets are offered; F counts them until `write_all` returns
(R14; `EncCall.batchSent`). -/
def EncCall.stageMaximal (e : EncCall) : EncCall :=
  { e with
    n := min e.f K.batch
    bs := List.replicate (min e.f K.batch) (maximalOctet e.p)
    phase := .write .maximal }

/-- ENC.REM (R116): the remainder octet is offered. DESIGN CHOICE: n is 1 while it is written (log entry 17); the spec
assigns n in ENC.MAXBATCH only. -/
def EncCall.stageRemainder (e : EncCall) : EncCall :=
  { e with n := 1, bs := [remainderOctet e.rm e.p], phase := .write .remainder }

/-- A maximal octet of polarity `p`, sent or received. -/
def maximal (p : Polarity) (s : State) : Out :=
  match s.call with
  | .encode e =>
    if e.phase = .maxBatch ∧ e.p = p ∧ 0 < e.f then .next (s.withCall (.encode e.stageMaximal))
    else .refused .octetOutOfTurn
  | .decode _ _ => onByte (maximalOctet p) s
  | .idle => .refused .octetOutOfTurn

/-- A remainder octet of polarity `p` and `r` ticks, sent or received. -/
def remnant (p : Polarity) (r : Mag7) (s : State) : Out :=
  match s.call with
  | .encode e =>
    if e.phase = .rem ∧ e.p = p ∧ e.rm = r.toNat ∧ 0 < e.rm then .next (s.withCall (.encode e.stageRemainder))
    else .refused .octetOutOfTurn
  | .decode _ _ => onByte (remainderOctet r.toNat p) s
  | .idle => .refused .octetOutOfTurn

/-- MAXP (R115). -/
def execMaxp (s : State) : Out := maximal .pulse s

/-- MAXS (R115). -/
def execMaxs (s : State) : Out := maximal .space s

/-- REMP (R116). -/
def execRemp (r : Mag7) (s : State) : Out := remnant .pulse r s

/-- REMS (R116). -/
def execRems (r : Mag7) (s : State) : Out := remnant .space r s

end Sys2Proof.Machine
end

