-- ==== Sys2Proof/Machine/Dispatch.lean ====
section
/-! DEFINITION. The dispatch of an instruction to its meaning: one arm per row of spec/opcode_table.json. -/

namespace Sys2Proof.Machine

def exec (i : Instr) (s : State) : Host.Outcome State Fault Refusal :=
  match i with
  | .strobe => Sys2Proof.Machine.execStrobe s
  | .p mag => Sys2Proof.Machine.execP mag s
  | .s mag => Sys2Proof.Machine.execS mag s
  | .maxp => Sys2Proof.Machine.execMaxp s
  | .maxs => Sys2Proof.Machine.execMaxs s
  | .remp r => Sys2Proof.Machine.execRemp r s
  | .rems r => Sys2Proof.Machine.execRems r s

end Sys2Proof.Machine
end

