-- ==== Sys2Proof/Machine/Calls.lean ====
section
/-! DEFINITION. The start of a call when none is in progress (R70, R110, R43), and the reset input (R170). -/

namespace Sys2Proof.Machine

/-- With no call in progress: the host's next request, or, where there is none, nothing (R148; log entry 2). -/
def startCall (s : State) : Out :=
  match s.hostCalls with
  | [] => .next s
  | .reset :: rest => .next (s.withHostCalls rest).resetBlock
  | .decodeNext deadlineUs :: rest => .next ((s.withHostCalls rest).withCall (.decode deadlineUs .read))
  | .encode durations :: rest =>
    if durations.all (durationFits s.params) then
      .next ((s.withHostCalls rest).zeroTxpos.withCall (.encode (.start durations)))
    else .refused .durationTooWide

end Sys2Proof.Machine
end

