-- ==== Sys2Proof/Machine/Fetch.lean ====
section
/-! DEFINITION. What the block does next. It has no program counter (R17): DEC's instructions are the octets RX hands
over, in arrival order; ENC's are the octet classes its loop issues; every other step is an answer of a primitive, a
duration loaded, or the start of a call. -/

namespace Sys2Proof.Machine

/-- What the next step is: an instruction to run, with the state it runs in, or a step that is none. -/
inductive Fetched where
  | run (i : Instr) (s : State)
  | done (o : Out)

/-- The READ phase (R75): an octet is decoded and run; `WouldBlock` goes to WAIT; `Error` is DEC.RDERR (R84). -/
def fetchOctet (deadlineUs : Nat) (s : State) : Fetched :=
  match rxTryRead s with
  | .answered (.byte b) s' => .run (decodeOctet b) s'
  | .answered .wouldBlock s' => .done (.next (s'.withCall (.decode deadlineUs .wait)))
  | .answered .error s' => .done (.next (s'.raise .channelReadError))
  | .stuck => .done (.fault .stuck)
  | .inadmissible => .done (.refused .inadmissibleAnswer)

/-- The maximal class of a polarity (R115). -/
def maximalInstr : Polarity → Instr
  | .pulse => .maxp
  | .space => .maxs

/-- The remainder class of a polarity (R116). -/
def remainderInstr (rm : Nat) : Polarity → Instr
  | .pulse => .remp (BitVec.ofNat 7 rm)
  | .space => .rems (BitVec.ofNat 7 rm)

/-- The next step of an `encode` call (R112, R117). -/
def fetchEncoder (e : EncCall) (s : State) : Fetched :=
  match e.phase with
  | .seq => .done (encSeq e s)
  | .maxBatch => .run (maximalInstr e.p) s
  | .rem => .run (remainderInstr e.rm e.p) s
  | .write k => .done (encWrite k e s)
  | .waitWritable k => .done (encWaitWritable k e s)

/-- The next step of the block. -/
def fetch (s : State) : Fetched :=
  match s.call with
  | .idle => .done (startCall s)
  | .decode deadlineUs .read => fetchOctet deadlineUs s
  | .decode deadlineUs .wait => .done (decWait deadlineUs s)
  | .encode e => fetchEncoder e s

/-- The call in which the next octet of RX is read: the `decode_next` call in progress, in its READ phase, or, where
none is in progress, a `decode_next(0)` call. -/
def Call.toRead : Call → Call
  | .decode deadlineUs _ => .decode deadlineUs .read
  | .idle => .decode 0 .read
  | .encode _ => .decode 0 .read

end Sys2Proof.Machine
end

