-- ==== Sys2Proof/Machine/Step.lean ====
section
/-! DEFINITION. One step of the codec, and the placing of an instruction where the step reads its next octet. -/

namespace Sys2Proof.Machine

/-- One step: the instruction `fetch` finds is run by `exec`; a step that runs no instruction is done by `fetch`. -/
def step (s : State) : Host.Outcome State Fault Refusal :=
  match fetch s with
  | .run i s' => exec i s'
  | .done o => o

/-- `s` with an octet at the head of RX and a `decode_next` call in its READ phase (log entry 10), so that the very
next step reads and runs it. -/
def State.withFetchWord (s : State) (nbits w : Nat) : State :=
  (s.withCall s.call.toRead).withAnswers (.read (.byte (tableOctet nbits w)) :: s.answers)

end Sys2Proof.Machine
end

