-- ==== Sys2Proof/Machine/Ports.lean ====
section
/-! DEFINITION. The bit codes the spec fixes for a bit-level realisation: POL (R11), the event port `ev_kind`, `ev_dur`
(R54) and the result port `err` (R143). -/

namespace Sys2Proof.Machine

/-- The two-bit code of POL (R11): `10` is never produced. -/
def Pol.code : Pol → BitVec 2
  | .pulse => 0b00#2
  | .space => 0b01#2
  | .unset => 0b11#2

/-- `ev_kind[1:0]` (R54): `11` is not produced. -/
def Event.kindCode : Event → BitVec 2
  | .pulse _ => 0b00#2
  | .space _ => 0b01#2
  | .timeout => 0b10#2

/-- `ev_dur` (R54): the duration, not masked, and 0 for Timeout. -/
def Event.durationPort : Event → Nat
  | .pulse n => n
  | .space n => n
  | .timeout => 0

/-- `err[1:0]` (R143): `00` no error, `01` ChannelReadError, `10` ChannelWriteError; `11` is not produced. -/
def Result.errCode : Result → BitVec 2
  | .event _ => 0b00#2
  | .ok => 0b00#2
  | .error .channelReadError => 0b01#2
  | .error .channelWriteError => 0b10#2

end Sys2Proof.Machine
end

