-- ==== Sys2Proof/Safety.lean ====
section
/-! DEFINITION. What the claims are stated in: the state machine of the source's design note (R20, R73), the closed
form of the encoder's stream (R120), and the invariants that tie the machine's runs to them. Nothing here is used by
the machine. -/

namespace Sys2Proof.Safety

open Sys2Proof.Machine

/-! ### The decoder as the sum-type state machine of R73 -/

/-- The two state shapes of R20. -/
inductive DecShape where
  | empty
  | accumulating (p : Polarity) (n : Nat)
  deriving DecidableEq, Repr

/-- The registers read as a shape (R20): ACC is not observable while POL is Unset. -/
def shapeOf (s : State) : DecShape :=
  match s.pol.run with
  | none => .empty
  | some k => .accumulating k s.acc

/-- The `on_byte` rows of the table of R73: the next shape, and the event of the closed run, if one is closed. -/
def DecShape.onByte (x : DecShape) (b : Byte) : DecShape × List Event :=
  match x with
  | .empty => (.accumulating (polarityOf b) (durationOf b), [])
  | .accumulating k n =>
    if polarityOf b = k then (.accumulating k (n + durationOf b), [])
    else (.accumulating (polarityOf b) (durationOf b), [Event.ofRun k (qc k n (durationOf b))])

/-- One octet more, the events so far kept. -/
def DecShape.feed (x : DecShape × List Event) (b : Byte) : DecShape × List Event :=
  ((x.1.onByte b).1, x.2 ++ (x.1.onByte b).2)

/-- What the octets consumed since reset amount to: the shape they leave and the events of the runs they closed. -/
def decodeStream (bs : List Byte) : DecShape × List Event := bs.foldl DecShape.feed (.empty, [])

/-- The Pulse or Space event a result carries, if it carries one. -/
def runEventOf : Result → Option Event
  | .event (.pulse n) => some (.pulse n)
  | .event (.space n) => some (.space n)
  | .event .timeout => none
  | .error _ => none
  | .ok => none

/-- The Pulse and Space events returned since reset, "ignoring Timeout and errors between them" (R88). -/
def runEvents (s : State) : List Event := s.results.filterMap runEventOf

/-- The decoder's registers and events are what the octets consumed amount to (R20, R87), and RXPOS counts those
octets (R17). -/
def DecInv (s : State) : Prop :=
  s.rxpos = s.rxTaken.length ∧ decodeStream s.rxTaken = (shapeOf s, runEvents s)

/-- The polarity of a run's event. -/
def eventPolarity : Event → Option Polarity
  | .pulse _ => some .pulse
  | .space _ => some .space
  | .timeout => none

/-- Neighbours differ. -/
def alternates : List (Option Polarity) → Bool
  | [] => true
  | [_] => true
  | a :: b :: rest => a != b && alternates (b :: rest)

/-- The longest length an event of these results carries fits `w` bits. -/
def durationsBelow (bound : Nat) (rs : List Result) : Prop :=
  ∀ r ∈ rs, ∀ e, r = .event e → e.durationPort < bound

/-- In a finite realisation of at least 17 bits (R12), ACC and every reported duration fit (R54: `ev_dur` has the
width of ACC). -/
def AccBounded (s : State) : Prop :=
  ∀ w, s.params.accW = some w → 17 ≤ w ∧ s.acc < 2 ^ w ∧ durationsBelow (2 ^ w) s.results

/-! ### The encoder's stream in closed form -/

/-- The remainder octet of a duration, where there is one (R116). -/
def remainderPart (rm : Nat) (p : Polarity) : List Byte := if 0 < rm then [remainderOctet rm p] else []

/-- `enc1(d, p)` (R120). -/
def encOne (d : Nat) (p : Polarity) : List Byte :=
  List.replicate (fullUnits (ticks d)) (maximalOctet p) ++ remainderPart (remainder (ticks d)) p

/-- The octets of the durations from index `i` on (R120). -/
def encFrom : Nat → List Nat → List Byte
  | _, [] => []
  | i, d :: ds => encOne d (polarityOfIndex i) ++ encFrom (i + 1) ds

/-- `enc(durations)` (R120). -/
def encStream (durations : List Nat) : List Byte := encFrom 0 durations

/-- The octets of the indices after the current one. -/
def laterOctets (e : EncCall) : List Byte := encFrom (e.i + 1) (e.durations.drop (e.i + 1))

/-- F maximal octets and the remainder octet, where there is one: what the current duration has still to send (R14). -/
def restOfDuration (e : EncCall) : List Byte := List.replicate e.f (maximalOctet e.p) ++ remainderPart e.rm e.p

/-- The octets of the current duration that follow the `write_all` under way. -/
def restAfterWrite (e : EncCall) : SendKind → List Byte
  | .maximal => restOfDuration e.batchSent
  | .remainder => []

/-- The octets a call has still to get accepted, read off its working values. -/
def pendingOctets (e : EncCall) : List Byte :=
  match e.phase with
  | .seq => encFrom e.i (e.durations.drop e.i)
  | .maxBatch => restOfDuration e ++ laterOctets e
  | .rem => remainderPart e.rm e.p ++ laterOctets e
  | .write k => e.bs ++ restAfterWrite e k ++ laterOctets e
  | .waitWritable k => e.bs ++ restAfterWrite e k ++ laterOctets e

/-- The octets accepted since the call began: the last TXPOS octets of TX (R17). -/
def sentInCall (s : State) : List Byte := s.tx.drop (s.tx.length - s.txpos)

/-- The working values of R14 in their ranges, for a duration that has been loaded. -/
def Loaded (e : EncCall) : Prop :=
  ∃ d, e.durations[e.i]? = some d ∧ e.p = polarityOfIndex e.i ∧ e.t = ticks d ∧ e.rm = remainder (ticks d) ∧
    e.f ≤ fullUnits (ticks d)

/-- The octet a `write_all` of each kind is made of (R115, R116). -/
def octetOf (e : EncCall) : SendKind → Byte
  | .maximal => maximalOctet e.p
  | .remainder => remainderOctet e.rm e.p

/-- The value of n in the `write_all` of each kind: R115 for a batch, log entry 17 (DESIGN CHOICE) for the remainder. -/
def offerSize (e : EncCall) : SendKind → Nat
  | .maximal => min e.f 16
  | .remainder => 1

/-- What a `write_all` holds: at least one and at most n equal octets, n = min(F, 16) while a batch is written, F not
yet less by it (R14, R38, R47, R115), and n = 1 while the remainder octet is (log entry 17). -/
def Offering (e : EncCall) (k : SendKind) : Prop :=
  Loaded e ∧ e.bs ≠ [] ∧ e.bs.length ≤ e.n ∧ e.n = offerSize e k ∧ (∀ b ∈ e.bs, b = octetOf e k) ∧
    (k = .remainder → e.f = 0 ∧ 0 < e.rm)

/-- Where a call may stand. -/
def PhaseInv (e : EncCall) : Prop :=
  match e.phase with
  | .seq => True
  | .maxBatch => Loaded e ∧ 0 < e.f
  | .rem => Loaded e ∧ e.f = 0 ∧ 0 < e.rm
  | .write k => Offering e k
  | .waitWritable k => Offering e k

/-- Inside an `encode` call: what has been accepted, followed by what is still pending, is `enc(durations)` (R120);
and the call stands where it may. -/
def EncInv (s : State) : Prop :=
  match s.call with
  | .encode e =>
    s.txpos ≤ s.tx.length ∧ sentInCall s ++ pendingOctets e = encStream e.durations ∧ PhaseInv e
  | .idle => True
  | .decode _ _ => True

/-! ### Phrases of the statements -/

/-- A `decode_next` call is in its READ phase. -/
def Reading (s : State) : Prop := ∃ deadlineUs, s.call = .decode deadlineUs .read

/-- `xs` is a strict prefix of `ys`. -/
def StrictPrefix (xs ys : List Byte) : Prop := ∃ b rest, ys = xs ++ b :: rest

/-- A change of the next state, where a step has one. -/
def mapNext (f : State → State) : Host.Outcome State Fault Refusal → Host.Outcome State Fault Refusal
  | .next t => .next (f t)
  | .fault r => .fault r
  | .refused r => .refused r

/-- A step that the host's reset input takes (R170). -/
def ResetsBlock (s : State) : Prop := s.call = .idle ∧ ∃ rest, s.hostCalls = .reset :: rest

/-- The answers that hand over a sequence of octets. -/
def byteAnswers (bs : List Byte) : List Answer := bs.map fun b => .read (.byte b)

end Sys2Proof.Safety
end

