-- ==== Sys2Proof/Certificates/Slice0/Obligations.lean ====
section
/-! DEFINITION. The statements for the provers. Each docstring names the rule of spec/ or the log entry it rests on.
The operands of an octet are given as 16 * magnitude and polarity of its class; PlacedOctet… and StepRuns… tie a class
to the octet received, WordsOfTheTable… and DecodeAndEncode… the octet to its class. -/

open Sys2Proof Sys2Proof.Machine Sys2Proof.Safety

/-! ### Encoding -/

/-- spec/30_encoding.md sections 3 and 7: words written out from the table decode to their receive classes (the
transmit rows' words too: log entry 8). -/
def Obligations.WordsOfTheTableDecode : Prop :=
  decodeTableWord 8 0x00 = some .strobe ∧ decodeTableWord 8 0x01 = some (.s 0#7) ∧
  decodeTableWord 8 0x02 = some (.p 1#7) ∧ decodeTableWord 8 0x03 = some (.s 1#7) ∧
  decodeTableWord 8 0x4C = some (.p 38#7) ∧ decodeTableWord 8 0x97 = some (.s 75#7) ∧
  decodeTableWord 8 0x80 = some (.p 64#7) ∧ decodeTableWord 8 0xFE = some (.p 127#7) ∧
  decodeTableWord 8 0xFF = some (.s 127#7)

/-- spec/30_encoding.md sections 3 and 4: at the head of any stream, the octet of a well-formed instruction decodes to
that instruction (STROBE, P, S) or to the receive class of the same octet (MAXP, MAXS, REMP, REMS: log entry 8); and
every octet is the encoding of the well-formed receive class it decodes to. -/
def Obligations.DecodeAndEncodeAgree : Prop :=
  (∀ (i : Instr) (rest : List Byte), i.wellFormed = true → decode (encode i :: rest) = .ok (i.asReceived, rest)) ∧
  (∀ (b : Byte) (rest : List Byte), ∃ i : Instr,
    decode (b :: rest) = .ok (i, rest) ∧ i.wellFormed = true ∧ i.asReceived = i ∧ encode i = b)

/-- spec/30_encoding.md section 4 (E4): no octet ENC produces has magnitude 0, so 0x00 and 0x01 are never sent, and
every one of them is the octet of a well-formed transmit class. -/
def Obligations.EncoderStreamHasTransmitClassesOnly : Prop :=
  ∀ (durations : List Nat), ∀ b ∈ encStream durations,
    b ≠ 0x00#8 ∧ b ≠ 0x01#8 ∧ ∃ i : Instr, classifySent b = some i ∧ i.wellFormed = true ∧ encode i = b

/-! ### What a received octet does -/

/-- R80, DEC.START, for every class. -/
def Obligations.FirstOctetStartsRun : Prop :=
  ∀ (i : Instr) (s : State), Reading s → s.pol = .unset →
    exec i s = .next { s with
      acc := 16 * i.magnitude.toNat
      pol := match i.polarity with | .pulse => .pulse | .space => .space }

/-- R81, DEC.CLOSE, for every class. -/
def Obligations.OctetOfOtherPolarityClosesRun : Prop :=
  ∀ (i : Instr) (s : State), Reading s →
    (s.pol = .pulse → i.polarity = .space →
      exec i s = .next { s with
        acc := 16 * i.magnitude.toNat
        pol := .space
        call := .idle
        results := s.results ++ [.event (.pulse (qc .pulse s.acc (16 * i.magnitude.toNat)))] }) ∧
    (s.pol = .space → i.polarity = .pulse →
      exec i s = .next { s with
        acc := 16 * i.magnitude.toNat
        pol := .pulse
        call := .idle
        results := s.results ++ [.event (.space (qc .space s.acc (16 * i.magnitude.toNat)))] })

/-- R82, DEC.EXTEND, for every class, with ACC unbounded as the model of R12 has it. -/
def Obligations.OctetOfSamePolarityExtendsRun : Prop :=
  ∀ (i : Instr) (s : State), Reading s → s.params.accW = none →
    (s.pol = .pulse → i.polarity = .pulse → exec i s = .next { s with acc := s.acc + 16 * i.magnitude.toNat }) ∧
    (s.pol = .space → i.polarity = .space → exec i s = .next { s with acc := s.acc + 16 * i.magnitude.toNat })

/-- spec/10_state.md section 2 (decision D3, log entry 12): in a realisation with ACC_W bits, extending a run faults
exactly where the sum does not fit, and otherwise adds. -/
def Obligations.FiniteAccumulatorFaultsOnOverflow : Prop :=
  ∀ (i : Instr) (s : State) (w : Nat), Reading s → s.params.accW = some w →
    (s.pol = .pulse ∧ i.polarity = .pulse ∨ s.pol = .space ∧ i.polarity = .space) →
    (2 ^ w ≤ s.acc + 16 * i.magnitude.toNat → exec i s = .fault .accOverflow) ∧
    (s.acc + 16 * i.magnitude.toNat < 2 ^ w →
      exec i s = .next { s with acc := s.acc + 16 * i.magnitude.toNat })

/-- R60: no octet faults (ACC unbounded, R12): a read that hands over an octet always has a next state. -/
def Obligations.NoOctetValueStopsTheDecoder : Prop :=
  ∀ (s : State) (b : Byte) (rest : List Answer), Reading s → s.params.accW = none →
    s.answers = .read (.byte b) :: rest → ∃ t, step s = .next t

/-- R103: `qc`, for every closed polarity, length and closing duration. -/
def Obligations.QuirkCorrectorFunction : Prop :=
  ∀ (k : Polarity) (a d : Nat),
    (qc k a d = if k = .space ∧ d = 0 ∧ a > 10000 then 100000 else if a = 0 then 1 else a) ∧ 1 ≤ qc k a d

/-- R104: the strobe closing a Space run longer than 10000 us reports exactly 100000 us; no Pulse run is overridden. -/
def Obligations.StrobeAfterLongSpaceReportsGap : Prop :=
  (∀ s : State, Reading s → s.pol = .space → s.acc > 10000 →
    exec .strobe s = .next { s with
      acc := 0
      pol := .pulse
      call := .idle
      results := s.results ++ [.event (.space 100000)] }) ∧
  (∀ (i : Instr) (s : State), Reading s → s.pol = .pulse → i.polarity = .space → s.acc > 0 →
    exec i s = .next { s with
      acc := 16 * i.magnitude.toNat
      pol := .space
      call := .idle
      results := s.results ++ [.event (.pulse s.acc)] })

/-- spec/41_quirk.md section 3: where the quirk does not fire: a Space run closed by a longer Pulse octet, or of at
most 10000 us, keeps its measured length. -/
def Obligations.UnquirkedSpaceKeepsItsLength : Prop :=
  ∀ (i : Instr) (s : State), Reading s → s.pol = .space → i.polarity = .pulse → 0 < s.acc →
    (i.magnitude ≠ 0#7 ∨ s.acc ≤ 10000) →
    exec i s = .next { s with
      acc := 16 * i.magnitude.toNat
      pol := .pulse
      call := .idle
      results := s.results ++ [.event (.space s.acc)] }

/-- R101: a closed run of length 0 is reported as 1, for both polarities and every closing octet. -/
def Obligations.EmptyRunIsReportedAsOne : Prop :=
  ∀ (i : Instr) (s : State), Reading s → s.acc = 0 →
    (s.pol = .pulse → i.polarity = .space →
      exec i s = .next { s with
        acc := 16 * i.magnitude.toNat
        pol := .space
        call := .idle
        results := s.results ++ [.event (.pulse 1)] }) ∧
    (s.pol = .space → i.polarity = .pulse →
      exec i s = .next { s with
        acc := 16 * i.magnitude.toNat
        pol := .pulse
        call := .idle
        results := s.results ++ [.event (.space 1)] })

/-- spec/30_encoding.md section 3: received, a maximal or remainder octet is an ordinary octet of its polarity and
length; DEC does not tell the two apart. -/
def Obligations.SentClassesAreOrdinaryWhenReceived : Prop :=
  ∀ s : State, Reading s →
    exec .maxp s = exec (.p 127#7) s ∧ exec .maxs s = exec (.s 127#7) s ∧
    (∀ r : Mag7, exec (.remp r) s = exec (.p r) s ∧ exec (.rems r) s = exec (.s r) s)

/-- spec/20_memory.md section 6 (decision D22, log entry 7): an octet given to a unit that is not reading is refused
by name; the receive classes never act inside an `encode` call. -/
def Obligations.OctetOutsideReadPhaseIsRefused : Prop :=
  ∀ (i : Instr) (s : State), ¬ Reading s →
    ((∀ e, s.call ≠ .encode e) → exec i s = .refused .octetOutOfTurn) ∧
    (∀ e m, s.call = .encode e → (i = .strobe ∨ i = .p m ∨ i = .s m) → exec i s = .refused .octetOutOfTurn)

/-- The frame of STROBE, P and S, and of the other four received: registers ACC and POL and, on a close, the end of
the call with one event; nothing else. -/
def Obligations.ReceivedOctetFrame : Prop :=
  ∀ (i : Instr) (s t : State), Reading s → exec i s = .next t →
    t.params = s.params ∧ t.hostCalls = s.hostCalls ∧ t.answers = s.answers ∧ t.rxTaken = s.rxTaken ∧
    t.rxpos = s.rxpos ∧ t.tx = s.tx ∧ t.txpos = s.txpos ∧
    (t.call = s.call ∧ t.results = s.results ∨
      t.call = .idle ∧ ∃ n, t.results = s.results ++ [.event (.pulse n)] ∨ t.results = s.results ++ [.event (.space n)])

/-! ### What a sent class does -/

/-- spec/42_encoder.md sections 2 to 4: MAXP and MAXS offer a batch of n = min(F, 16) maximal octets, which stay
counted in F; when the batch has been accepted F falls by n, and another batch is formed exactly if F is still above
0. That forming a batch and writing it are steps of their own is the model's choice (log entry 9). -/
def Obligations.MaximalOctetsAreBatched : Prop :=
  ∀ (s : State) (e : EncCall), s.call = .encode e →
    (e.phase = .maxBatch → 0 < e.f → e.p = .pulse →
      exec .maxp s = .next { s with call := .encode { e with
        n := min e.f 16, bs := List.replicate (min e.f 16) 0xFE#8, phase := .write .maximal } }) ∧
    (e.phase = .maxBatch → 0 < e.f → e.p = .space →
      exec .maxs s = .next { s with call := .encode { e with
        n := min e.f 16, bs := List.replicate (min e.f 16) 0xFF#8, phase := .write .maximal } }) ∧
    (∀ rest, e.phase = .write .maximal → e.bs ≠ [] → s.answers = .write (.written e.bs.length) :: rest →
      ∃ t e', step s = .next t ∧ t.call = .encode e' ∧ e'.f = e.f - e.n ∧ (e'.phase = .maxBatch ↔ 0 < e'.f))

/-- spec/30_encoding.md section 2, spec/42_encoder.md section 3: REMP and REMS form the octet `(Rm << 1) | p` from a
remainder of 1 to 127, a value from 0x02 to 0xFF whose magnitude is Rm. That forming it is a step of its own, and that
n is 1 from then on, are the model's choices (log entries 9 and 17). -/
def Obligations.RemainderOctetIsFormed : Prop :=
  ∀ (s : State) (e : EncCall), s.call = .encode e → e.phase = .rem → 0 < e.rm → e.rm < 128 →
    ∃ b : Byte, b.toNat = 2 * e.rm + (if e.p = .pulse then 0 else 1) ∧ 0x02 ≤ b.toNat ∧
      (magField b).toNat = e.rm ∧ polarityOf b = e.p ∧
      (e.p = .pulse → exec (.remp (BitVec.ofNat 7 e.rm)) s =
        .next { s with call := .encode { e with n := 1, bs := [b], phase := .write .remainder } }) ∧
      (e.p = .space → exec (.rems (BitVec.ofNat 7 e.rm)) s =
        .next { s with call := .encode { e with n := 1, bs := [b], phase := .write .remainder } })

/-- Log entry 7: a transmit class that is not the one ENC is about to send is refused by name. -/
def Obligations.UnexpectedSentClassIsRefused : Prop :=
  ∀ (s : State) (e : EncCall), s.call = .encode e →
    (e.phase ≠ .maxBatch ∨ e.p ≠ .pulse ∨ e.f = 0 → exec .maxp s = .refused .octetOutOfTurn) ∧
    (e.phase ≠ .maxBatch ∨ e.p ≠ .space ∨ e.f = 0 → exec .maxs s = .refused .octetOutOfTurn) ∧
    (∀ r : Mag7,
      (e.phase ≠ .rem ∨ e.p ≠ .pulse ∨ e.rm ≠ r.toNat ∨ e.rm = 0 → exec (.remp r) s = .refused .octetOutOfTurn) ∧
      (e.phase ≠ .rem ∨ e.p ≠ .space ∨ e.rm ≠ r.toNat ∨ e.rm = 0 → exec (.rems r) s = .refused .octetOutOfTurn))

/-- The frame of MAXP, MAXS, REMP and REMS inside an `encode` call: the working value n, the octets on offer and where
the call stands may change; F, every other working value and register, both streams and the results do not. That such a
class runs in a step of its own is the model's choice (log entry 9). -/
def Obligations.SentClassFrame : Prop :=
  ∀ (i : Instr) (s t : State) (e : EncCall), s.call = .encode e → exec i s = .next t →
    ∃ e', t = { s with call := .encode e' } ∧ e'.durations = e.durations ∧ e'.i = e.i ∧ e'.p = e.p ∧ e'.t = e.t ∧
      e'.rm = e.rm ∧ e'.f = e.f

/-! ### Steps -/

/-- spec/40_decoder.md section 3: where the next octet of RX is the encoding of an instruction, the step takes it off
RX, counts it, and runs that instruction. Where ENC is about to send, the step runs the class it sends: the octet is
that of spec/42_encoder.md section 3; that forming it is a step of its own, on no answer, is the model's choice (log
entry 9). -/
def Obligations.StepRunsTheInstruction : Prop :=
  (∀ (s : State) (deadlineUs : Nat) (b : Byte) (rest : List Answer) (i : Instr) (after : List Byte),
    s.call = .decode deadlineUs .read → s.answers = .read (.byte b) :: rest → i.wellFormed = true →
    decode (b :: after) = .ok (i, after) →
    step s = exec i { s with answers := rest, rxTaken := s.rxTaken ++ [b], rxpos := s.rxpos + 1 }) ∧
  (∀ (s : State) (e : EncCall), s.call = .encode e →
    (e.phase = .maxBatch → e.p = .pulse → step s = exec .maxp s) ∧
    (e.phase = .maxBatch → e.p = .space → step s = exec .maxs s) ∧
    (e.phase = .rem → e.p = .pulse → e.rm < 128 → ∃ r : Mag7, r.toNat = e.rm ∧ step s = exec (.remp r) s) ∧
    (e.phase = .rem → e.p = .space → e.rm < 128 → ∃ r : Mag7, r.toNat = e.rm ∧ step s = exec (.rems r) s))

/-- Log entry 10: an octet placed with withFetchWord is the instruction the very next step runs. -/
def Obligations.PlacedOctetRunsNext : Prop :=
  ∀ (s : State) (w : Nat) (i : Instr), decodeTableWord 8 w = some i →
    ∃ deadlineUs, step (s.withFetchWord 8 w) = exec i { s with
      call := .decode deadlineUs .read
      rxTaken := s.rxTaken ++ [tableOctet 8 w]
      rxpos := s.rxpos + 1 }

/-- R75, the READ phase. -/
def Obligations.ReadPhaseAnswers : Prop :=
  ∀ (s : State) (deadlineUs : Nat) (rest : List Answer), s.call = .decode deadlineUs .read →
    (∀ b, s.answers = .read (.byte b) :: rest →
      step s = exec (decodeOctet b) { s with answers := rest, rxTaken := s.rxTaken ++ [b], rxpos := s.rxpos + 1 }) ∧
    (s.answers = .read .wouldBlock :: rest →
      step s = .next { s with answers := rest, call := .decode deadlineUs .wait }) ∧
    (s.answers = .read .error :: rest →
      step s = .next { s with
        answers := rest, call := .idle, results := s.results ++ [.error .channelReadError] })

/-- R76, the WAIT phase; R83, a time-out leaves the run as it is. -/
def Obligations.WaitPhaseAnswers : Prop :=
  ∀ (s : State) (deadlineUs : Nat) (rest : List Answer), s.call = .decode deadlineUs .wait →
    (s.answers = .wait .ready :: rest →
      step s = .next { s with answers := rest, call := .decode deadlineUs .read }) ∧
    (s.answers = .wait .timedOut :: rest → 1000 ≤ deadlineUs →
      step s = .next { s with answers := rest, call := .idle, results := s.results ++ [.event .timeout] }) ∧
    (s.answers = .wait .interrupted :: rest → step s = .next { s with answers := rest }) ∧
    (s.answers = .wait .error :: rest →
      step s = .next { s with
        answers := rest, call := .idle, results := s.results ++ [.error .channelReadError] })

/-- R84, DEC.RDERR: an `Error` from the read and from the wait both end the call with ChannelReadError; ACC and POL
stand. -/
def Obligations.ReadErrorKeepsTheRun : Prop :=
  ∀ (s : State) (deadlineUs : Nat) (rest : List Answer),
    (s.call = .decode deadlineUs .read ∧ s.answers = .read .error :: rest ∨
      s.call = .decode deadlineUs .wait ∧ s.answers = .wait .error :: rest) →
    ∃ t, step s = .next t ∧ t.results = s.results ++ [.error .channelReadError] ∧ t.call = .idle ∧
      t.acc = s.acc ∧ t.pol = s.pol ∧ t.rxTaken = s.rxTaken

/-- R77: with a deadline of 0 a `TimedOut` is no answer (there is no next state), and no step of the call ends it with
Timeout; from 1000 us on `TimedOut` is an answer at every WAIT step. -/
def Obligations.DeadlineZeroNeverTimesOut : Prop :=
  (∀ (s : State) (deadlineUs : Nat) (rest : List Answer), s.call = .decode deadlineUs .wait →
    s.answers = .wait .timedOut :: rest →
    (deadlineUs = 0 → ∀ t, step s ≠ .next t) ∧
    (1000 ≤ deadlineUs → ∃ t, step s = .next t ∧ t.call = .idle ∧ t.results = s.results ++ [.event .timeout])) ∧
  (∀ (s t : State) (ph : DecPhase), s.call = .decode 0 ph → step s = .next t →
    t.results ≠ s.results ++ [.event .timeout])

/-- spec/60_exceptions.md section 7 (decision D10, log entry 6): from 1 to 999 us SUBMS decides. -/
def Obligations.SubMillisecondDeadlineFollowsParameter : Prop :=
  ∀ (s : State) (deadlineUs : Nat) (rest : List Answer), s.call = .decode deadlineUs .wait →
    s.answers = .wait .timedOut :: rest → 1 ≤ deadlineUs → deadlineUs ≤ 999 →
    (s.params.subms = .forever → step s = .refused .inadmissibleAnswer) ∧
    (s.params.subms ≠ .forever →
      step s = .next { s with answers := rest, call := .idle, results := s.results ++ [.event .timeout] })

/-- spec/42_encoder.md sections 2 to 4: ENC.WRITE and wait_writable, one turn for each answer; and, once `write_all`
has returned, a batch taken off F, then the next batch, the remainder octet or the next index. That a step is one answer
and forms no octets of its own (log entry 9), and that the index advances in the step that ends a duration, the other
working values staying (log entry 18), are the model's choices. -/
def Obligations.WriteAnswers : Prop :=
  ∀ (s : State) (e : EncCall) (k : SendKind) (rest : List Answer), s.call = .encode e →
    (e.phase = .write k → e.bs ≠ [] →
      (∀ n, 1 ≤ n → n < e.bs.length → s.answers = .write (.written n) :: rest →
        step s = .next { s with
          answers := rest, tx := s.tx ++ e.bs.take n, txpos := s.txpos + n, call := .encode { e with bs := e.bs.drop n } }) ∧
      (s.answers = .write (.written e.bs.length) :: rest → k = .maximal →
        step s = .next { s with
          answers := rest, tx := s.tx ++ e.bs, txpos := s.txpos + e.bs.length
          call := .encode { e with
            f := e.f - e.n
            bs := []
            i := if e.f ≤ e.n ∧ e.rm = 0 then e.i + 1 else e.i
            phase := if e.n < e.f then .maxBatch else if 0 < e.rm then .rem else .seq } }) ∧
      (s.answers = .write (.written e.bs.length) :: rest → k = .remainder →
        step s = .next { s with
          answers := rest, tx := s.tx ++ e.bs, txpos := s.txpos + e.bs.length
          call := .encode { e with bs := [], i := e.i + 1, phase := .seq } }) ∧
      (s.answers = .write .wouldBlock :: rest →
        step s = .next { s with answers := rest, call := .encode { e with phase := .waitWritable k } }) ∧
      (s.answers = .write .interrupted :: rest → step s = .next { s with answers := rest }) ∧
      (s.answers = .write .error :: rest →
        step s = .next { s with
          answers := rest, call := .idle, results := s.results ++ [.error .channelWriteError] })) ∧
    (e.phase = .waitWritable k →
      (s.answers = .wait .ready :: rest →
        step s = .next { s with answers := rest, call := .encode { e with phase := .write k } }) ∧
      (s.answers = .wait .interrupted :: rest → step s = .next { s with answers := rest }) ∧
      (s.answers = .wait .error :: rest →
        step s = .next { s with
          answers := rest, call := .idle, results := s.results ++ [.error .channelWriteError] }))

/-- spec/20_memory.md section 4 (decision D9): a `Written` of no octet is treated as `WouldBlock`. -/
def Obligations.WrittenZeroIsWouldBlock : Prop :=
  ∀ (s : State) (e : EncCall) (k : SendKind) (rest : List Answer), s.call = .encode e → e.phase = .write k →
    e.bs ≠ [] → s.answers = .write (.written 0) :: rest →
    step s = .next { s with answers := rest, call := .encode { e with phase := .waitWritable k } }

/-- spec/42_encoder.md sections 2 and 3 (decisions D14, D15; log entries 9 and 18): one duration is loaded: its polarity
from its index, T, F and Rm, and the first octets to form; a duration of no ticks uses up its index and sends nothing,
its index advancing in this same step (the model's choice, log entry 18). -/
def Obligations.EncoderLoadsDuration : Prop :=
  ∀ (s : State) (e : EncCall) (d : Nat), s.call = .encode e → e.phase = .seq → e.durations[e.i]? = some d →
    step s = .next { s with call := .encode { e with
      i := if (d + 8) / 16 = 0 then e.i + 1 else e.i
      p := if e.i % 2 = 0 then .pulse else .space
      t := (d + 8) / 16
      f := (d + 8) / 16 / 128
      rm := (d + 8) / 16 % 128
      phase := if 128 ≤ (d + 8) / 16 then .maxBatch else if 1 ≤ (d + 8) / 16 then .rem else .seq } }

/-- spec/42_encoder.md sections 2 and 6: after the last duration (at once, for the empty code) the call returns ok and
nothing more is sent. That returning ok is a step of its own, on no answer (log entry 9), and that i is then beyond the
last index (log entry 18), are the model's choices. -/
def Obligations.EncoderReturnsOkAfterLastDuration : Prop :=
  ∀ (s : State) (e : EncCall), s.call = .encode e → e.phase = .seq → e.durations.length ≤ e.i →
    step s = .next { s with call := .idle, results := s.results ++ [.ok] }

/-- spec/40_decoder.md section 1, spec/42_encoder.md section 1, spec/20_memory.md section 6 (log entries 2, 5, 13):
with no call in progress the host's next call starts; `decode_next` in READ, `encode` at index 0 with polarity Pulse,
if its durations fit; with nothing asked, nothing happens. While a call is in progress none starts: what the host asks
stays where it is, and the call goes on with its own operand or ends. -/
def Obligations.HostCallsStart : Prop :=
  (∀ (s : State) (rest : List HostCall), s.call = .idle →
    (∀ deadlineUs, s.hostCalls = .decodeNext deadlineUs :: rest →
      step s = .next { s with hostCalls := rest, call := .decode deadlineUs .read }) ∧
    (∀ ds, s.hostCalls = .encode ds :: rest → (∀ w, s.params.durW = some w → ∀ d ∈ ds, d < 2 ^ w) →
      step s = .next { s with
        hostCalls := rest
        txpos := 0
        call := .encode { durations := ds, i := 0, p := .pulse, t := 0, f := 0, rm := 0, n := 0, bs := [], phase := .seq } }) ∧
    (∀ ds w d, s.hostCalls = .encode ds :: rest → s.params.durW = some w → d ∈ ds → 2 ^ w ≤ d →
      step s = .refused .durationTooWide) ∧
    (s.hostCalls = [] → step s = .next s)) ∧
  (∀ s t : State, s.call ≠ .idle → step s = .next t →
    t.hostCalls = s.hostCalls ∧
    (∀ deadlineUs ph, s.call = .decode deadlineUs ph → t.call = .idle ∨ ∃ ph', t.call = .decode deadlineUs ph') ∧
    (∀ e, s.call = .encode e → t.call = .idle ∨ ∃ e', t.call = .encode e' ∧ e'.durations = e.durations))

/-- spec/70_reset_and_hazards.md section 1 (decisions D5, D27; log entries 3, 4, 11): the reset input sets POL to Unset
and ACC to 0 and does not reach outside the block: answers still to come and octets sent stay. -/
def Obligations.ResetInputReachesOnlyTheBlock : Prop :=
  ∀ (s : State) (rest : List HostCall), s.call = .idle → s.hostCalls = .reset :: rest →
    step s = .next { s with
      hostCalls := rest, pol := .unset, acc := 0, rxTaken := [], rxpos := 0, txpos := 0, results := [] }

/-- Decision D23 (log entry 1): a call whose answers are exhausted is stuck. -/
def Obligations.ExhaustedAnswersAreStuck : Prop :=
  ∀ s : State, s.answers = [] →
    ((∃ deadlineUs ph, s.call = .decode deadlineUs ph) ∨
      (∃ e k, s.call = .encode e ∧ (e.phase = .write k ∧ e.bs ≠ [] ∨ e.phase = .waitWritable k))) →
    step s = .fault .stuck

/-- Decision D9 (log entry 1): an answer the primitive asked cannot give is refused by name: one of another primitive,
`Written` of more octets than were offered, `TimedOut` in ENC. -/
def Obligations.InadmissibleAnswersAreRefused : Prop :=
  ∀ (s : State) (rest : List Answer),
    (∀ deadlineUs, s.call = .decode deadlineUs .read →
      ((∃ a, s.answers = .write a :: rest) ∨ (∃ a, s.answers = .wait a :: rest)) →
      step s = .refused .inadmissibleAnswer) ∧
    (∀ deadlineUs, s.call = .decode deadlineUs .wait →
      ((∃ a, s.answers = .write a :: rest) ∨ (∃ a, s.answers = .read a :: rest)) →
      step s = .refused .inadmissibleAnswer) ∧
    (∀ e k, s.call = .encode e → e.phase = .write k → e.bs ≠ [] →
      ((∃ a, s.answers = .read a :: rest) ∨ (∃ a, s.answers = .wait a :: rest) ∨
        (∃ n, e.bs.length < n ∧ s.answers = .write (.written n) :: rest)) →
      step s = .refused .inadmissibleAnswer) ∧
    (∀ e k, s.call = .encode e → e.phase = .waitWritable k →
      ((∃ a, s.answers = .read a :: rest) ∨ (∃ a, s.answers = .write a :: rest) ∨ s.answers = .wait .timedOut :: rest) →
      step s = .refused .inadmissibleAnswer)

/-! ### Invariants -/

/-- spec/10_state.md section 8 (log entries 2 to 4, 6): the reset state has POL Unset and ACC 0, and meets the
invariants. -/
def Obligations.ResetMeetsTheInvariants : Prop :=
  State.reset.pol = .unset ∧ State.reset.acc = 0 ∧ State.reset.call = .idle ∧ DecInv State.reset ∧
    EncInv State.reset ∧ AccBounded State.reset

/-- spec/10_state.md section 2, spec/40_decoder.md sections 2 and 7: the register machine with its calls, waits,
time-outs and errors IS the state machine of the source's design note over the octets consumed: whatever the state,
if ACC, POL and the events returned are what those octets amount to, they are so after the next step. -/
def Obligations.DecoderIsTheAccumulatorStateMachine : Prop :=
  ∀ s t : State, DecInv s → step s = .next t → DecInv t

/-- spec/42_encoder.md section 5: in every `encode` call, what has been accepted followed by what is pending is
`enc(durations)`, whatever the channel answers. -/
def Obligations.EncoderStreamIsKept : Prop :=
  ∀ s t : State, EncInv s → step s = .next t → EncInv t

/-- spec/42_encoder.md section 1: a call that returns ok has had exactly `enc(durations)` accepted. -/
def Obligations.OkMeansFullyTransmitted : Prop :=
  ∀ (s t : State) (e : EncCall), EncInv s → s.call = .encode e → step s = .next t →
    t.results = s.results ++ [.ok] → sentInCall t = encStream e.durations

/-- spec/42_encoder.md section 4 (decision D17): a call that ends with ChannelWriteError has sent a strict prefix of
`enc(durations)`, and nothing already sent is retracted. -/
def Obligations.WriteErrorLeavesStrictPrefix : Prop :=
  ∀ (s t : State) (e : EncCall), EncInv s → s.call = .encode e → step s = .next t →
    t.results = s.results ++ [.error .channelWriteError] →
    t.tx = s.tx ∧ t.call = .idle ∧ StrictPrefix (sentInCall t) (encStream e.durations)

/-- Log entry 7: from a state that meets the encoder's invariant, no step is refused for an octet out of turn: the
instructions the machine itself issues always have their effect. -/
def Obligations.IssuedOctetsAreNeverOutOfTurn : Prop :=
  ∀ s : State, EncInv s → step s ≠ .refused .octetOutOfTurn

/-- spec/40_decoder.md section 7 (alternation law): the Pulse and Space events returned alternate, the first has the
polarity of the first octet consumed, and the last differs from the run in progress. -/
def Obligations.EventsAlternate : Prop :=
  ∀ s : State, DecInv s →
    alternates ((runEvents s).map eventPolarity) = true ∧
    (∀ e b, (runEvents s).head? = some e → s.rxTaken.head? = some b → eventPolarity e = some (polarityOf b)) ∧
    (∀ e, (runEvents s).getLast? = some e → eventPolarity e ≠ s.pol.run)

/-- spec/41_quirk.md section 2: every reported duration is 1 or a positive multiple of 16. -/
def Obligations.ReportedDurationsAreTicksOrOne : Prop :=
  ∀ s : State, DecInv s → ∀ e ∈ runEvents s,
    e.durationPort = 1 ∨ 0 < e.durationPort ∧ e.durationPort % 16 = 0

/-- spec/10_state.md section 2, invariant (a): ACC stays a multiple of 16. -/
def Obligations.AccumulatorStaysInTicks : Prop :=
  ∀ s t : State, s.acc % 16 = 0 → step s = .next t → t.acc % 16 = 0

/-- spec/10_state.md section 2 and spec/30_encoding.md section 1 (decisions D3, D6): in a finite realisation of at
least 17 bits, ACC and every reported duration keep fitting. -/
def Obligations.FiniteWidthIsKept : Prop :=
  ∀ s t : State, AccBounded s → step s = .next t → AccBounded t

/-- spec/70_reset_and_hazards.md section 1: no step but the reset input brings POL back to Unset. -/
def Obligations.OnlyResetUnsetsPolarity : Prop :=
  ∀ s t : State, step s = .next t → s.pol ≠ .unset → ¬ ResetsBlock s → t.pol ≠ .unset

/-- spec/10_state.md section 2: no step but the consumption of an octet in the READ phase, and the reset input,
changes ACC or POL. -/
def Obligations.OnlyOctetsChangeTheAccumulator : Prop :=
  ∀ s t : State, step s = .next t → (t.acc ≠ s.acc ∨ t.pol ≠ s.pol) → ¬ ResetsBlock s →
    Reading s ∧ ∃ b, s.answers = .read (.byte b) :: t.answers ∧ t.rxTaken = s.rxTaken ++ [b]

/-- spec/10_state.md section 2 (ownership): a step of an `encode` call neither reads nor writes ACC or POL. -/
def Obligations.EncoderIgnoresTheAccumulator : Prop :=
  ∀ (s : State) (e : EncCall) (a : Nat) (q : Pol), s.call = .encode e →
    step { s with acc := a, pol := q } = mapNext (fun t => { t with acc := a, pol := q }) (step s)

/-- spec/20_memory.md section 1 (reach): a step of a `decode_next` call neither reads nor writes TX. -/
def Obligations.DecoderIgnoresTx : Prop :=
  ∀ (s : State) (deadlineUs : Nat) (ph : DecPhase) (x : List Byte) (n : Nat), s.call = .decode deadlineUs ph →
    step { s with tx := x, txpos := n } = mapNext (fun t => { t with tx := x, txpos := n }) (step s)

/-- spec/20_memory.md sections 1 and 6: an octet is consumed exactly once, in the order of arrival, and only in the
READ phase; every step uses up at most one answer. -/
def Obligations.OctetsAreConsumedInOrder : Prop :=
  ∀ s t : State, step s = .next t → ¬ ResetsBlock s →
    (t.answers = s.answers ∨ ∃ a, s.answers = a :: t.answers) ∧
    (t.rxTaken = s.rxTaken ∧ t.rxpos = s.rxpos ∧ (∀ b, s.answers = .read (.byte b) :: t.answers → False) ∨
      Reading s ∧
        ∃ b, s.answers = .read (.byte b) :: t.answers ∧ t.rxTaken = s.rxTaken ++ [b] ∧ t.rxpos = s.rxpos + 1)

/-- spec/20_memory.md section 1: octets once accepted are not retracted; a step appends to TX at most the octets ENC
offers, from their first on. -/
def Obligations.TxIsAppendOnly : Prop :=
  ∀ s t : State, step s = .next t →
    t.tx = s.tx ∨ ∃ e n, s.call = .encode e ∧ 1 ≤ n ∧ n ≤ e.bs.length ∧ t.tx = s.tx ++ e.bs.take n

/-- spec/40_decoder.md section 2, spec/60_exceptions.md section 5: a call returns at most one result, and ends with it. -/
def Obligations.OneResultEndsTheCall : Prop :=
  ∀ s t : State, step s = .next t → ¬ ResetsBlock s →
    t.results = s.results ∨ ∃ r, t.results = s.results ++ [r] ∧ t.call = .idle ∧ s.call ≠ .idle

/-- spec/00_scope.md section 4: the open parameters are fixed. -/
def Obligations.ParametersAreFixed : Prop :=
  ∀ s t : State, step s = .next t → t.params = s.params

/-! ### Laws over many octets -/

/-- spec/40_decoder.md section 7 (run law, ACC unbounded): octets of one polarity followed by one of the other give
exactly one event, of length 8 times the sum of the masked values, on top of what the run already held. -/
def Obligations.RunGivesExactlyOneEvent : Prop :=
  ∀ (s : State) (deadlineUs : Nat) (k : Polarity) (held : Nat) (bs : List Byte) (c : Byte) (rest : List Answer),
    s.call = .decode deadlineUs .read → s.params.accW = none →
    (s.pol = .unset ∧ held = 0 ∧ bs ≠ [] ∨ s.pol.run = some k ∧ held = s.acc) →
    (∀ b ∈ bs, polarityOf b = k) → polarityOf c ≠ k →
    s.answers = byteAnswers (bs ++ [c]) ++ rest →
    ∃ t : State, Host.Core.run core (bs.length + 1) s = Host.Outcome.next t ∧
      t.results = s.results ++
        [.event (.ofRun k (qc k (held + 8 * (bs.map fun b => (b &&& 0xFE#8).toNat).sum) (durationOf c)))] ∧
      t.acc = durationOf c ∧ t.pol.run = some (polarityOf c) ∧ t.call = .idle ∧ t.answers = rest

/-- spec/42_encoder.md sections 5 and 6: the octets of one duration, how many they are, and what a decoder adds up for
them: 16 * (T - T/128) microseconds; within -7 .. +8 us of a duration of 8 to 2039 us, and within -23 .. -8 us from
2040 to 4087 us. -/
def Obligations.DecodedLengthOfAnEncodedDuration : Prop :=
  ∀ (d : Nat) (p : Polarity),
    (encOne d p).length = (d + 8) / 16 / 128 + (if 0 < (d + 8) / 16 % 128 then 1 else 0) ∧
    (d ≤ 7 → encOne d p = []) ∧
    (8 ≤ d → ∃ n, decodeStream (encOne d p) = (.accumulating p n, []) ∧
      n = 16 * ((d + 8) / 16 - (d + 8) / 16 / 128) ∧
      (d ≤ 2039 → n ≤ d + 8 ∧ d ≤ n + 7) ∧
      (2040 ≤ d → d ≤ 4087 → n + 8 ≤ d ∧ d ≤ n + 23))

/-- spec/42_encoder.md sections 1 and 5: every `encode` call can complete: for some answers of the channel it returns
ok, with exactly `enc(durations)` appended to TX, and ACC and POL as they were. -/
def Obligations.EveryEncodeCallCanComplete : Prop :=
  ∀ (s : State) (ds : List Nat) (rest : List HostCall), s.call = .idle → s.hostCalls = .encode ds :: rest →
    (∀ d ∈ ds, durationFits s.params d = true) →
    ∃ (as : List Answer) (k : Nat) (t : State),
      Host.Core.run core k ({ s with answers := as } : State) = Host.Outcome.next t ∧
      t.tx = s.tx ++ encStream ds ∧ t.results = s.results ++ [.ok] ∧ t.call = .idle ∧ t.hostCalls = rest ∧
      t.acc = s.acc ∧ t.pol = s.pol

/-! ### Bit codes -/

/-- spec/10_state.md section 2, spec/30_encoding.md section 1, spec/60_exceptions.md section 1 (decisions D4, D6, D13):
the codes of POL, `ev_kind`, `ev_dur` and `err`; the unused codes are never produced. -/
def Obligations.PortCodes : Prop :=
  (∀ q : Pol, q.code ≠ 0b10#2 ∧ (q.code = 0b11#2 ↔ q = .unset)) ∧
  (∀ q q' : Pol, q.code = q'.code → q = q') ∧
  (∀ k n, (Event.ofRun k n).kindCode = (match k with | .pulse => 0b00#2 | .space => 0b01#2) ∧
    (Event.ofRun k n).durationPort = n ∧ (Pol.ofPolarity k).code = (Event.ofRun k n).kindCode) ∧
  (Event.timeout.kindCode = 0b10#2 ∧ Event.timeout.durationPort = 0) ∧
  (∀ r : Result, r.errCode ≠ 0b11#2 ∧ (r.errCode = 0b01#2 ↔ r = .error .channelReadError) ∧
    (r.errCode = 0b10#2 ↔ r = .error .channelWriteError))
end

