-- ==== Sys2Proof/Laws/Octets.lean ====
section
/-! SUPPORT. What the field extraction of R56 reads from an octet put together from a magnitude and a polarity bit, and
that the octets ENC forms are those of the opcode table. -/

namespace Sys2Proof.Machine

/-! ### The constants, one by one -/

@[simp] theorem K_polMask : K.polMask = 0x01#8 := rfl
@[simp] theorem K_magMask : K.magMask = 0xFE#8 := rfl
@[simp] theorem K_decMul : K.decMul = 8 := rfl
@[simp] theorem K_quirkThreshold : K.quirkThreshold = 10000 := rfl
@[simp] theorem K_quirkOverride : K.quirkOverride = 100000 := rfl
@[simp] theorem K_tick : K.tick = 16 := rfl
@[simp] theorem K_round : K.round = 8 := rfl
@[simp] theorem K_split : K.split = 128 := rfl
@[simp] theorem K_batch : K.batch = 16 := rfl
@[simp] theorem K_maxPulse : K.maxPulse = 0xFE#8 := rfl
@[simp] theorem K_maxSpace : K.maxSpace = 0xFF#8 := rfl

/-! ### The conversion of a duration -/

theorem ticks_eq (d : Nat) : ticks d = (d + 8) / 16 := rfl
theorem fullUnits_eq (t : Nat) : fullUnits t = t / 128 := rfl
theorem remainder_eq (t : Nat) : remainder t = t % 128 := rfl
theorem remainder_lt (t : Nat) : remainder t < 128 := Nat.mod_lt _ (by decide)

/-! ### Octets -/

theorem polarityOf_pulseOctet (m : Mag7) : polarityOf (m ++ 0#1) = .pulse := by
  revert m; decide

theorem polarityOf_spaceOctet (m : Mag7) : polarityOf (m ++ 1#1) = .space := by
  revert m; decide

theorem durationOf_pulseOctet (m : Mag7) : durationOf (m ++ 0#1) = 16 * m.toNat := by
  revert m; decide

theorem durationOf_spaceOctet (m : Mag7) : durationOf (m ++ 1#1) = 16 * m.toNat := by
  revert m; decide

theorem remainderOctet_pulse (r : Mag7) : remainderOctet r.toNat .pulse = encode (.remp r) := by
  revert r; decide

theorem remainderOctet_space (r : Mag7) : remainderOctet r.toNat .space = encode (.rems r) := by
  revert r; decide

theorem maximalOctet_pulse : maximalOctet .pulse = encode .maxp := rfl

theorem maximalOctet_space : maximalOctet .space = encode .maxs := rfl

/-- R8, R85: the duration of an octet is a multiple of 16, at most 2032. -/
theorem durationOf_le (b : Byte) : durationOf b ≤ 2032 := by
  revert b; decide

theorem durationOf_dvd (b : Byte) : durationOf b % 16 = 0 := by
  revert b; decide

end Sys2Proof.Machine
end

