-- ==== Sys2Proof/Laws/State.lean ====
section
/-! SUPPORT. One lemma per field per update of the state, true by definition. -/

namespace Sys2Proof.Machine

@[simp] theorem State.withDec_params (s : State) (a : Nat) (q : Pol) : (s.withDec a q).params = s.params := rfl
@[simp] theorem State.withDec_pol (s : State) (a : Nat) (q : Pol) : (s.withDec a q).pol = q := rfl
@[simp] theorem State.withDec_acc (s : State) (a : Nat) (q : Pol) : (s.withDec a q).acc = a := rfl
@[simp] theorem State.withDec_call (s : State) (a : Nat) (q : Pol) : (s.withDec a q).call = s.call := rfl
@[simp] theorem State.withDec_hostCalls (s : State) (a : Nat) (q : Pol) : (s.withDec a q).hostCalls = s.hostCalls := rfl
@[simp] theorem State.withDec_answers (s : State) (a : Nat) (q : Pol) : (s.withDec a q).answers = s.answers := rfl
@[simp] theorem State.withDec_rxTaken (s : State) (a : Nat) (q : Pol) : (s.withDec a q).rxTaken = s.rxTaken := rfl
@[simp] theorem State.withDec_rxpos (s : State) (a : Nat) (q : Pol) : (s.withDec a q).rxpos = s.rxpos := rfl
@[simp] theorem State.withDec_tx (s : State) (a : Nat) (q : Pol) : (s.withDec a q).tx = s.tx := rfl
@[simp] theorem State.withDec_txpos (s : State) (a : Nat) (q : Pol) : (s.withDec a q).txpos = s.txpos := rfl
@[simp] theorem State.withDec_results (s : State) (a : Nat) (q : Pol) : (s.withDec a q).results = s.results := rfl

@[simp] theorem State.withCall_params (s : State) (c : Call) : (s.withCall c).params = s.params := rfl
@[simp] theorem State.withCall_pol (s : State) (c : Call) : (s.withCall c).pol = s.pol := rfl
@[simp] theorem State.withCall_acc (s : State) (c : Call) : (s.withCall c).acc = s.acc := rfl
@[simp] theorem State.withCall_call (s : State) (c : Call) : (s.withCall c).call = c := rfl
@[simp] theorem State.withCall_hostCalls (s : State) (c : Call) : (s.withCall c).hostCalls = s.hostCalls := rfl
@[simp] theorem State.withCall_answers (s : State) (c : Call) : (s.withCall c).answers = s.answers := rfl
@[simp] theorem State.withCall_rxTaken (s : State) (c : Call) : (s.withCall c).rxTaken = s.rxTaken := rfl
@[simp] theorem State.withCall_rxpos (s : State) (c : Call) : (s.withCall c).rxpos = s.rxpos := rfl
@[simp] theorem State.withCall_tx (s : State) (c : Call) : (s.withCall c).tx = s.tx := rfl
@[simp] theorem State.withCall_txpos (s : State) (c : Call) : (s.withCall c).txpos = s.txpos := rfl
@[simp] theorem State.withCall_results (s : State) (c : Call) : (s.withCall c).results = s.results := rfl

@[simp] theorem State.withAnswers_params (s : State) (as : List Answer) : (s.withAnswers as).params = s.params := rfl
@[simp] theorem State.withAnswers_pol (s : State) (as : List Answer) : (s.withAnswers as).pol = s.pol := rfl
@[simp] theorem State.withAnswers_acc (s : State) (as : List Answer) : (s.withAnswers as).acc = s.acc := rfl
@[simp] theorem State.withAnswers_call (s : State) (as : List Answer) : (s.withAnswers as).call = s.call := rfl
@[simp] theorem State.withAnswers_hostCalls (s : State) (as : List Answer) : (s.withAnswers as).hostCalls = s.hostCalls := rfl
@[simp] theorem State.withAnswers_answers (s : State) (as : List Answer) : (s.withAnswers as).answers = as := rfl
@[simp] theorem State.withAnswers_rxTaken (s : State) (as : List Answer) : (s.withAnswers as).rxTaken = s.rxTaken := rfl
@[simp] theorem State.withAnswers_rxpos (s : State) (as : List Answer) : (s.withAnswers as).rxpos = s.rxpos := rfl
@[simp] theorem State.withAnswers_tx (s : State) (as : List Answer) : (s.withAnswers as).tx = s.tx := rfl
@[simp] theorem State.withAnswers_txpos (s : State) (as : List Answer) : (s.withAnswers as).txpos = s.txpos := rfl
@[simp] theorem State.withAnswers_results (s : State) (as : List Answer) : (s.withAnswers as).results = s.results := rfl

@[simp] theorem State.withHostCalls_params (s : State) (cs : List HostCall) : (s.withHostCalls cs).params = s.params := rfl
@[simp] theorem State.withHostCalls_pol (s : State) (cs : List HostCall) : (s.withHostCalls cs).pol = s.pol := rfl
@[simp] theorem State.withHostCalls_acc (s : State) (cs : List HostCall) : (s.withHostCalls cs).acc = s.acc := rfl
@[simp] theorem State.withHostCalls_call (s : State) (cs : List HostCall) : (s.withHostCalls cs).call = s.call := rfl
@[simp] theorem State.withHostCalls_hostCalls (s : State) (cs : List HostCall) : (s.withHostCalls cs).hostCalls = cs := rfl
@[simp] theorem State.withHostCalls_answers (s : State) (cs : List HostCall) : (s.withHostCalls cs).answers = s.answers := rfl
@[simp] theorem State.withHostCalls_rxTaken (s : State) (cs : List HostCall) : (s.withHostCalls cs).rxTaken = s.rxTaken := rfl
@[simp] theorem State.withHostCalls_rxpos (s : State) (cs : List HostCall) : (s.withHostCalls cs).rxpos = s.rxpos := rfl
@[simp] theorem State.withHostCalls_tx (s : State) (cs : List HostCall) : (s.withHostCalls cs).tx = s.tx := rfl
@[simp] theorem State.withHostCalls_txpos (s : State) (cs : List HostCall) : (s.withHostCalls cs).txpos = s.txpos := rfl
@[simp] theorem State.withHostCalls_results (s : State) (cs : List HostCall) : (s.withHostCalls cs).results = s.results := rfl

@[simp] theorem State.takeOctet_params (s : State) (b : Byte) : (s.takeOctet b).params = s.params := rfl
@[simp] theorem State.takeOctet_pol (s : State) (b : Byte) : (s.takeOctet b).pol = s.pol := rfl
@[simp] theorem State.takeOctet_acc (s : State) (b : Byte) : (s.takeOctet b).acc = s.acc := rfl
@[simp] theorem State.takeOctet_call (s : State) (b : Byte) : (s.takeOctet b).call = s.call := rfl
@[simp] theorem State.takeOctet_hostCalls (s : State) (b : Byte) : (s.takeOctet b).hostCalls = s.hostCalls := rfl
@[simp] theorem State.takeOctet_answers (s : State) (b : Byte) : (s.takeOctet b).answers = s.answers := rfl
@[simp] theorem State.takeOctet_rxTaken (s : State) (b : Byte) : (s.takeOctet b).rxTaken = s.rxTaken ++ [b] := rfl
@[simp] theorem State.takeOctet_rxpos (s : State) (b : Byte) : (s.takeOctet b).rxpos = s.rxpos + 1 := rfl
@[simp] theorem State.takeOctet_tx (s : State) (b : Byte) : (s.takeOctet b).tx = s.tx := rfl
@[simp] theorem State.takeOctet_txpos (s : State) (b : Byte) : (s.takeOctet b).txpos = s.txpos := rfl
@[simp] theorem State.takeOctet_results (s : State) (b : Byte) : (s.takeOctet b).results = s.results := rfl

@[simp] theorem State.sendOctets_params (s : State) (bs : List Byte) : (s.sendOctets bs).params = s.params := rfl
@[simp] theorem State.sendOctets_pol (s : State) (bs : List Byte) : (s.sendOctets bs).pol = s.pol := rfl
@[simp] theorem State.sendOctets_acc (s : State) (bs : List Byte) : (s.sendOctets bs).acc = s.acc := rfl
@[simp] theorem State.sendOctets_call (s : State) (bs : List Byte) : (s.sendOctets bs).call = s.call := rfl
@[simp] theorem State.sendOctets_hostCalls (s : State) (bs : List Byte) : (s.sendOctets bs).hostCalls = s.hostCalls := rfl
@[simp] theorem State.sendOctets_answers (s : State) (bs : List Byte) : (s.sendOctets bs).answers = s.answers := rfl
@[simp] theorem State.sendOctets_rxTaken (s : State) (bs : List Byte) : (s.sendOctets bs).rxTaken = s.rxTaken := rfl
@[simp] theorem State.sendOctets_rxpos (s : State) (bs : List Byte) : (s.sendOctets bs).rxpos = s.rxpos := rfl
@[simp] theorem State.sendOctets_tx (s : State) (bs : List Byte) : (s.sendOctets bs).tx = s.tx ++ bs := rfl
@[simp] theorem State.sendOctets_txpos (s : State) (bs : List Byte) : (s.sendOctets bs).txpos = s.txpos + bs.length := rfl
@[simp] theorem State.sendOctets_results (s : State) (bs : List Byte) : (s.sendOctets bs).results = s.results := rfl

@[simp] theorem State.zeroTxpos_params (s : State) : s.zeroTxpos.params = s.params := rfl
@[simp] theorem State.zeroTxpos_pol (s : State) : s.zeroTxpos.pol = s.pol := rfl
@[simp] theorem State.zeroTxpos_acc (s : State) : s.zeroTxpos.acc = s.acc := rfl
@[simp] theorem State.zeroTxpos_call (s : State) : s.zeroTxpos.call = s.call := rfl
@[simp] theorem State.zeroTxpos_hostCalls (s : State) : s.zeroTxpos.hostCalls = s.hostCalls := rfl
@[simp] theorem State.zeroTxpos_answers (s : State) : s.zeroTxpos.answers = s.answers := rfl
@[simp] theorem State.zeroTxpos_rxTaken (s : State) : s.zeroTxpos.rxTaken = s.rxTaken := rfl
@[simp] theorem State.zeroTxpos_rxpos (s : State) : s.zeroTxpos.rxpos = s.rxpos := rfl
@[simp] theorem State.zeroTxpos_tx (s : State) : s.zeroTxpos.tx = s.tx := rfl
@[simp] theorem State.zeroTxpos_txpos (s : State) : s.zeroTxpos.txpos = 0 := rfl
@[simp] theorem State.zeroTxpos_results (s : State) : s.zeroTxpos.results = s.results := rfl

@[simp] theorem State.finish_params (s : State) (r : Result) : (s.finish r).params = s.params := rfl
@[simp] theorem State.finish_pol (s : State) (r : Result) : (s.finish r).pol = s.pol := rfl
@[simp] theorem State.finish_acc (s : State) (r : Result) : (s.finish r).acc = s.acc := rfl
@[simp] theorem State.finish_call (s : State) (r : Result) : (s.finish r).call = .idle := rfl
@[simp] theorem State.finish_hostCalls (s : State) (r : Result) : (s.finish r).hostCalls = s.hostCalls := rfl
@[simp] theorem State.finish_answers (s : State) (r : Result) : (s.finish r).answers = s.answers := rfl
@[simp] theorem State.finish_rxTaken (s : State) (r : Result) : (s.finish r).rxTaken = s.rxTaken := rfl
@[simp] theorem State.finish_rxpos (s : State) (r : Result) : (s.finish r).rxpos = s.rxpos := rfl
@[simp] theorem State.finish_tx (s : State) (r : Result) : (s.finish r).tx = s.tx := rfl
@[simp] theorem State.finish_txpos (s : State) (r : Result) : (s.finish r).txpos = s.txpos := rfl
@[simp] theorem State.finish_results (s : State) (r : Result) : (s.finish r).results = s.results ++ [r] := rfl

@[simp] theorem State.emit_params (s : State) (e : Event) : (s.emit e).params = s.params := rfl
@[simp] theorem State.emit_pol (s : State) (e : Event) : (s.emit e).pol = s.pol := rfl
@[simp] theorem State.emit_acc (s : State) (e : Event) : (s.emit e).acc = s.acc := rfl
@[simp] theorem State.emit_call (s : State) (e : Event) : (s.emit e).call = .idle := rfl
@[simp] theorem State.emit_hostCalls (s : State) (e : Event) : (s.emit e).hostCalls = s.hostCalls := rfl
@[simp] theorem State.emit_answers (s : State) (e : Event) : (s.emit e).answers = s.answers := rfl
@[simp] theorem State.emit_rxTaken (s : State) (e : Event) : (s.emit e).rxTaken = s.rxTaken := rfl
@[simp] theorem State.emit_rxpos (s : State) (e : Event) : (s.emit e).rxpos = s.rxpos := rfl
@[simp] theorem State.emit_tx (s : State) (e : Event) : (s.emit e).tx = s.tx := rfl
@[simp] theorem State.emit_txpos (s : State) (e : Event) : (s.emit e).txpos = s.txpos := rfl
@[simp] theorem State.emit_results (s : State) (e : Event) : (s.emit e).results = s.results ++ [.event e] := rfl

@[simp] theorem State.raise_params (s : State) (e : ChannelError) : (s.raise e).params = s.params := rfl
@[simp] theorem State.raise_pol (s : State) (e : ChannelError) : (s.raise e).pol = s.pol := rfl
@[simp] theorem State.raise_acc (s : State) (e : ChannelError) : (s.raise e).acc = s.acc := rfl
@[simp] theorem State.raise_call (s : State) (e : ChannelError) : (s.raise e).call = .idle := rfl
@[simp] theorem State.raise_hostCalls (s : State) (e : ChannelError) : (s.raise e).hostCalls = s.hostCalls := rfl
@[simp] theorem State.raise_answers (s : State) (e : ChannelError) : (s.raise e).answers = s.answers := rfl
@[simp] theorem State.raise_rxTaken (s : State) (e : ChannelError) : (s.raise e).rxTaken = s.rxTaken := rfl
@[simp] theorem State.raise_rxpos (s : State) (e : ChannelError) : (s.raise e).rxpos = s.rxpos := rfl
@[simp] theorem State.raise_tx (s : State) (e : ChannelError) : (s.raise e).tx = s.tx := rfl
@[simp] theorem State.raise_txpos (s : State) (e : ChannelError) : (s.raise e).txpos = s.txpos := rfl
@[simp] theorem State.raise_results (s : State) (e : ChannelError) : (s.raise e).results = s.results ++ [.error e] := rfl

@[simp] theorem State.resetBlock_params (s : State) : s.resetBlock.params = s.params := rfl
@[simp] theorem State.resetBlock_pol (s : State) : s.resetBlock.pol = .unset := rfl
@[simp] theorem State.resetBlock_acc (s : State) : s.resetBlock.acc = 0 := rfl
@[simp] theorem State.resetBlock_call (s : State) : s.resetBlock.call = .idle := rfl
@[simp] theorem State.resetBlock_hostCalls (s : State) : s.resetBlock.hostCalls = s.hostCalls := rfl
@[simp] theorem State.resetBlock_answers (s : State) : s.resetBlock.answers = s.answers := rfl
@[simp] theorem State.resetBlock_rxTaken (s : State) : s.resetBlock.rxTaken = [] := rfl
@[simp] theorem State.resetBlock_rxpos (s : State) : s.resetBlock.rxpos = 0 := rfl
@[simp] theorem State.resetBlock_tx (s : State) : s.resetBlock.tx = s.tx := rfl
@[simp] theorem State.resetBlock_txpos (s : State) : s.resetBlock.txpos = 0 := rfl
@[simp] theorem State.resetBlock_results (s : State) : s.resetBlock.results = [] := rfl

end Sys2Proof.Machine
end

