-- ==== Sys2Proof/Laws/Ops.lean ====
section
/-! SUPPORT. What each shared operation can do, said once: the three primitives, the dispatch of an octet, and the
meaning of an instruction in each call. -/

namespace Sys2Proof.Machine

/-- Going on from an answer reaches a next state only through an answer. -/
theorem Asked.andThen_next {α : Type} {x : Asked α} {k : α → State → Out} {t : State}
    (h : x.andThen k = .next t) : ∃ a s, x = .answered a s ∧ k a s = .next t := by
  cases x with
  | answered a s => exact ⟨a, s, rfl, h⟩
  | stuck => cases h
  | inadmissible => cases h

/-- Every answer of `RxTryRead`. -/
theorem rxTryRead_answered {s s' : State} {a : ReadAnswer} (h : rxTryRead s = .answered a s') :
    ∃ rest, s.answers = .read a :: rest ∧
      ((∃ b, a = .byte b ∧ s' = (s.withAnswers rest).takeOctet b) ∨
        ((a = .wouldBlock ∨ a = .error) ∧ s' = s.withAnswers rest)) := by
  unfold rxTryRead at h
  split at h <;> cases h <;> simp_all

/-- Every answer of `TxWrite`. -/
theorem txWrite_answered {bs : List Byte} {s s' : State} {a : WriteAnswer} (h : txWrite bs s = .answered a s') :
    ∃ rest,
      (∃ n, a = .written n ∧ s.answers = .write (.written n) :: rest ∧ 1 ≤ n ∧ n ≤ bs.length ∧
        s' = (s.withAnswers rest).sendOctets (bs.take n)) ∨
      (a = .wouldBlock ∧ (s.answers = .write .wouldBlock :: rest ∨ s.answers = .write (.written 0) :: rest) ∧
        s' = s.withAnswers rest) ∨
      (a = .interrupted ∧ s.answers = .write .interrupted :: rest ∧ s' = s.withAnswers rest) ∨
      (a = .error ∧ s.answers = .write .error :: rest ∧ s' = s.withAnswers rest) := by
  unfold txWrite at h
  split at h
  case h_2 n rest hn =>
    refine ⟨rest, ?_⟩
    split at h
    · cases h; simp_all
    · split at h
      · cases h; simp_all; omega
      · cases h
  all_goals cases h <;> simp_all

/-- Every answer of `WaitReady`. -/
theorem waitReady_answered {m : Bool} {s s' : State} {a : WaitAnswer} (h : waitReady m s = .answered a s') :
    ∃ rest, s.answers = .wait a :: rest ∧ s' = s.withAnswers rest ∧ (a = .timedOut → m = true) := by
  unfold waitReady at h
  split at h
  case h_2 rest hr =>
    split at h <;> cases h
    exact ⟨rest, hr, rfl, fun _ => ‹_›⟩
  all_goals cases h <;> simp_all

/-- R79: exactly one of START, CLOSE and EXTEND. -/
theorem decOperands_next {p : Polarity} {d : Nat} {s t : State} (h : decOperands p d s = .next t) :
    (s.pol.run = none ∧ t = decStart p d s) ∨
    (∃ k, s.pol.run = some k ∧ p ≠ k ∧ t = decClose k p d s) ∨
    (s.pol.run = some p ∧ accFits s.params (s.acc + d) = true ∧ t = s.withDec (s.acc + d) s.pol) := by
  unfold decOperands at h
  split at h
  · exact .inl ⟨‹_›, by cases h; rfl⟩
  · rename_i k hk
    split at h
    · exact .inr (.inl ⟨k, hk, ‹_›, by cases h; rfl⟩)
    · rename_i hp
      unfold decExtend at h
      split at h <;> cases h
      exact .inr (.inr ⟨by simp_all, ‹_›, rfl⟩)

/-- In the READ phase every class is the octet of its polarity and length. -/
theorem exec_reading {i : Instr} {s : State} {dl : Nat} (h : s.call = .decode dl .read) :
    exec i s = decOperands i.polarity (16 * i.magnitude.toNat) s := by
  cases i <;>
    simp [exec, execStrobe, execP, execS, execMaxp, execMaxs, execRemp, execRems, maximal, remnant, onByte, h,
      remainderOctet_pulse, remainderOctet_space, encode, Instr.polarity, Instr.magnitude, polarityOf_pulseOctet,
      polarityOf_spaceOctet, durationOf_pulseOctet, durationOf_spaceOctet] <;> rfl

/-- What an octet's receive class says of it. -/
theorem decodeOctet_fields (b : Byte) :
    (decodeOctet b).polarity = polarityOf b ∧ 16 * (decodeOctet b).magnitude.toNat = durationOf b := by
  revert b; decide

/-- In the READ phase the receive class of an octet does what R79 says of the octet. -/
theorem exec_decodeOctet {b : Byte} {s : State} {dl : Nat} (h : s.call = .decode dl .read) :
    exec (decodeOctet b) s = decOperands (polarityOf b) (durationOf b) s := by
  rw [exec_reading h, (decodeOctet_fields b).1, (decodeOctet_fields b).2]

/-- With no call in progress, and while a `decode_next` call waits, no class has an effect. -/
theorem exec_idle {i : Instr} {s : State} (h : s.call = .idle) : exec i s = .refused .octetOutOfTurn := by
  cases i <;>
    simp [exec, execStrobe, execP, execS, execMaxp, execMaxs, execRemp, execRems, maximal, remnant, onByte, h]

theorem exec_waiting {i : Instr} {s : State} {dl : Nat} (h : s.call = .decode dl .wait) :
    exec i s = .refused .octetOutOfTurn := by
  cases i <;>
    simp [exec, execStrobe, execP, execS, execMaxp, execMaxs, execRemp, execRems, maximal, remnant, onByte, h]

/-- Inside an `encode` call a class has an effect only where ENC is about to send it. -/
theorem exec_encoding {i : Instr} {s : State} {e : EncCall} (h : s.call = .encode e) :
    exec i s =
      match i with
      | .strobe => .refused .octetOutOfTurn
      | .p _ => .refused .octetOutOfTurn
      | .s _ => .refused .octetOutOfTurn
      | .maxp => if e.phase = .maxBatch ∧ e.p = .pulse ∧ 0 < e.f then .next (s.withCall (.encode e.stageMaximal))
          else .refused .octetOutOfTurn
      | .maxs => if e.phase = .maxBatch ∧ e.p = .space ∧ 0 < e.f then .next (s.withCall (.encode e.stageMaximal))
          else .refused .octetOutOfTurn
      | .remp r => if e.phase = .rem ∧ e.p = .pulse ∧ e.rm = r.toNat ∧ 0 < e.rm then
            .next (s.withCall (.encode e.stageRemainder))
          else .refused .octetOutOfTurn
      | .rems r => if e.phase = .rem ∧ e.p = .space ∧ e.rm = r.toNat ∧ 0 < e.rm then
            .next (s.withCall (.encode e.stageRemainder))
          else .refused .octetOutOfTurn := by
  cases i <;>
    simp [exec, execStrobe, execP, execS, execMaxp, execMaxs, execRemp, execRems, maximal, remnant, onByte, h]

/-- The step while ENC is about to send a batch. -/
theorem step_maxBatch {s : State} {e : EncCall} (h : s.call = .encode e) (hp : e.phase = .maxBatch) :
    step s = if 0 < e.f then .next (s.withCall (.encode e.stageMaximal)) else .refused .octetOutOfTurn := by
  cases hq : e.p <;> simp [step, fetch, fetchEncoder, h, hp, hq, maximalInstr, exec_encoding h]

/-- The step while ENC is about to send a remainder octet. -/
theorem step_rem {s : State} {e : EncCall} (h : s.call = .encode e) (hp : e.phase = .rem) :
    step s = if 0 < e.rm ∧ e.rm < 128 then .next (s.withCall (.encode e.stageRemainder))
      else .refused .octetOutOfTurn := by
  have : e.rm = e.rm % 128 ↔ e.rm < 128 := by omega
  cases hq : e.p <;> simp [step, fetch, fetchEncoder, h, hp, hq, remainderInstr, exec_encoding h, this, and_comm]

end Sys2Proof.Machine
end

