-- ==== Sys2Proof/Laws/PerInstr.lean ====
section
/-! SUPPORT. A family of statements about the instruction as syntax: its octet carries the polarity and the magnitude
of its class (R51, R59), as the field extraction of R56 reads them. One lemma per constructor. -/

namespace Sys2Proof.Laws.OctetFields

open Sys2Proof.Machine

def Statement (i : Instr) : Prop :=
  polarityOf (encode i) = i.polarity ∧ durationOf (encode i) = 16 * i.magnitude.toNat

theorem strobe : Statement .strobe := ⟨rfl, rfl⟩

theorem p (m : Mag7) : Statement (.p m) := ⟨polarityOf_pulseOctet m, durationOf_pulseOctet m⟩

theorem s (m : Mag7) : Statement (.s m) := ⟨polarityOf_spaceOctet m, durationOf_spaceOctet m⟩

theorem maxp : Statement .maxp := ⟨rfl, rfl⟩

theorem maxs : Statement .maxs := ⟨rfl, rfl⟩

theorem remp (r : Mag7) : Statement (.remp r) := ⟨polarityOf_pulseOctet r, durationOf_pulseOctet r⟩

theorem rems (r : Mag7) : Statement (.rems r) := ⟨polarityOf_spaceOctet r, durationOf_spaceOctet r⟩

end Sys2Proof.Laws.OctetFields
end

