-- ==== Sys2Proof/Laws/Step.lean ====
section
/-! SUPPORT. Everything a step can do when it answers a next state, said once: one constructor per transition of the
machine, and the theorem that there is no other. -/

namespace Sys2Proof.Machine

/-- The transitions of the machine. -/
inductive StepKind (s : State) : State → Prop where
  | nothing : s.call = .idle → s.hostCalls = [] → StepKind s s
  | reset (rest) : s.call = .idle → s.hostCalls = .reset :: rest → StepKind s (s.withHostCalls rest).resetBlock
  | startDecode (dl rest) : s.call = .idle → s.hostCalls = .decodeNext dl :: rest →
      StepKind s ((s.withHostCalls rest).withCall (.decode dl .read))
  | startEncode (ds rest) : s.call = .idle → s.hostCalls = .encode ds :: rest →
      ds.all (durationFits s.params) = true →
      StepKind s ((s.withHostCalls rest).zeroTxpos.withCall (.encode (.start ds)))
  | octetStarts (dl b rest) : s.call = .decode dl .read → s.answers = .read (.byte b) :: rest → s.pol.run = none →
      StepKind s (decStart (polarityOf b) (durationOf b) ((s.withAnswers rest).takeOctet b))
  | octetCloses (dl b rest k) : s.call = .decode dl .read → s.answers = .read (.byte b) :: rest →
      s.pol.run = some k → polarityOf b ≠ k →
      StepKind s (decClose k (polarityOf b) (durationOf b) ((s.withAnswers rest).takeOctet b))
  | octetExtends (dl b rest) : s.call = .decode dl .read → s.answers = .read (.byte b) :: rest →
      s.pol.run = some (polarityOf b) → accFits s.params (s.acc + durationOf b) = true →
      StepKind s (((s.withAnswers rest).takeOctet b).withDec (s.acc + durationOf b) s.pol)
  | readBlocks (dl rest) : s.call = .decode dl .read → s.answers = .read .wouldBlock :: rest →
      StepKind s ((s.withAnswers rest).withCall (.decode dl .wait))
  | readFails (dl rest) : s.call = .decode dl .read → s.answers = .read .error :: rest →
      StepKind s ((s.withAnswers rest).raise .channelReadError)
  | waitReady (dl rest) : s.call = .decode dl .wait → s.answers = .wait .ready :: rest →
      StepKind s ((s.withAnswers rest).withCall (.decode dl .read))
  | waitTimesOut (dl rest) : s.call = .decode dl .wait → s.answers = .wait .timedOut :: rest →
      timeOutAdmissible s.params dl = true → StepKind s ((s.withAnswers rest).emit .timeout)
  | waitInterrupted (dl rest) : s.call = .decode dl .wait → s.answers = .wait .interrupted :: rest →
      StepKind s ((s.withAnswers rest).withCall (.decode dl .wait))
  | waitFails (dl rest) : s.call = .decode dl .wait → s.answers = .wait .error :: rest →
      StepKind s ((s.withAnswers rest).raise .channelReadError)
  | loads (e d) : s.call = .encode e → e.phase = .seq → e.durations[e.i]? = some d →
      StepKind s (s.withCall (.encode (e.load d)))
  | returnsOk (e) : s.call = .encode e → e.phase = .seq → e.durations[e.i]? = none → StepKind s (s.finish .ok)
  | stagesMaximal (e) : s.call = .encode e → e.phase = .maxBatch → 0 < e.f →
      StepKind s (s.withCall (.encode e.stageMaximal))
  | stagesRemainder (e) : s.call = .encode e → e.phase = .rem → 0 < e.rm → e.rm < 128 →
      StepKind s (s.withCall (.encode e.stageRemainder))
  | nothingOffered (e k) : s.call = .encode e → e.phase = .write k → e.bs = [] →
      StepKind s (s.withCall (.encode (e.afterWrite k)))
  | written (e k n rest) : s.call = .encode e → e.phase = .write k → e.bs ≠ [] →
      s.answers = .write (.written n) :: rest → 1 ≤ n → n ≤ e.bs.length →
      StepKind s (((s.withAnswers rest).sendOctets (e.bs.take n)).withCall (.encode (e.accepted k n)))
  | writeBlocks (e k rest) : s.call = .encode e → e.phase = .write k → e.bs ≠ [] →
      (s.answers = .write .wouldBlock :: rest ∨ s.answers = .write (.written 0) :: rest) →
      StepKind s ((s.withAnswers rest).withCall (.encode { e with phase := .waitWritable k }))
  | writeInterrupted (e k rest) : s.call = .encode e → e.phase = .write k → e.bs ≠ [] →
      s.answers = .write .interrupted :: rest →
      StepKind s ((s.withAnswers rest).withCall (.encode { e with phase := .write k }))
  | writeFails (e k rest) : s.call = .encode e → e.phase = .write k → e.bs ≠ [] →
      s.answers = .write .error :: rest → StepKind s ((s.withAnswers rest).raise .channelWriteError)
  | writable (e k rest) : s.call = .encode e → e.phase = .waitWritable k → s.answers = .wait .ready :: rest →
      StepKind s ((s.withAnswers rest).withCall (.encode { e with phase := .write k }))
  | writableInterrupted (e k rest) : s.call = .encode e → e.phase = .waitWritable k →
      s.answers = .wait .interrupted :: rest →
      StepKind s ((s.withAnswers rest).withCall (.encode { e with phase := .waitWritable k }))
  | writableFails (e k rest) : s.call = .encode e → e.phase = .waitWritable k → s.answers = .wait .error :: rest →
      StepKind s ((s.withAnswers rest).raise .channelWriteError)

theorem startCall_kinds {s t : State} (hc : s.call = .idle) (h : startCall s = .next t) : StepKind s t := by
  unfold startCall at h
  split at h
  · cases h; exact .nothing hc ‹_›
  · cases h; exact .reset _ hc ‹_›
  · cases h; exact .startDecode _ _ hc ‹_›
  · split at h <;> cases h
    exact .startEncode _ _ hc ‹_› ‹_›

theorem step_read_kinds {s t : State} {dl : Nat} (hc : s.call = .decode dl .read) (h : step s = .next t) :
    StepKind s t := by
  unfold step fetch at h
  simp only [hc, fetchOctet] at h
  cases hr : rxTryRead s with
  | stuck => simp [hr] at h
  | inadmissible => simp [hr] at h
  | answered a s' =>
    obtain ⟨rest, ha, ⟨b, rfl, rfl⟩ | ⟨rfl | rfl, rfl⟩⟩ := rxTryRead_answered hr <;> simp only [hr] at h
    · rw [exec_decodeOctet (dl := dl) (by simpa using hc)] at h
      obtain ⟨hp, rfl⟩ | ⟨k, hp, hk, rfl⟩ | ⟨hp, hf, rfl⟩ := decOperands_next h
      · exact .octetStarts dl b rest hc ha (by simpa using hp)
      · exact .octetCloses dl b rest k hc ha (by simpa using hp) hk
      · exact .octetExtends dl b rest hc ha (by simpa using hp) (by simpa using hf)
    · cases h; exact .readBlocks dl rest hc ha
    · cases h; exact .readFails dl rest hc ha

theorem decWait_kinds {s t : State} {dl : Nat} (hc : s.call = .decode dl .wait) (h : decWait dl s = .next t) :
    StepKind s t := by
  obtain ⟨a, s', hw, hk⟩ := Asked.andThen_next h
  obtain ⟨rest, ha, rfl, hm⟩ := waitReady_answered hw
  cases a <;> cases hk
  · exact .waitReady dl rest hc ha
  · exact .waitTimesOut dl rest hc ha (hm rfl)
  · exact .waitInterrupted dl rest hc ha
  · exact .waitFails dl rest hc ha

theorem encWrite_kinds {s t : State} {e : EncCall} {k : SendKind} (hc : s.call = .encode e)
    (hp : e.phase = .write k) (h : encWrite k e s = .next t) : StepKind s t := by
  unfold encWrite at h
  split at h
  · cases h; exact .nothingOffered e k hc hp ‹_›
  · rename_i hb
    obtain ⟨a, s', hw, hk⟩ := Asked.andThen_next h
    obtain ⟨rest, ⟨n, rfl, ha, h1, h2, rfl⟩ | ⟨rfl, ha, rfl⟩ | ⟨rfl, ha, rfl⟩ | ⟨rfl, ha, rfl⟩⟩ :=
      txWrite_answered hw <;> cases hk
    · exact .written e k n rest hc hp hb ha h1 h2
    · exact .writeBlocks e k rest hc hp hb ha
    · exact .writeInterrupted e k rest hc hp hb ha
    · exact .writeFails e k rest hc hp hb ha

theorem encWaitWritable_kinds {s t : State} {e : EncCall} {k : SendKind} (hc : s.call = .encode e)
    (hp : e.phase = .waitWritable k) (h : encWaitWritable k e s = .next t) : StepKind s t := by
  obtain ⟨a, s', hw, hk⟩ := Asked.andThen_next h
  obtain ⟨rest, ha, rfl, -⟩ := waitReady_answered hw
  cases a <;> cases hk
  · exact .writable e k rest hc hp ha
  · exact .writableInterrupted e k rest hc hp ha
  · exact .writableFails e k rest hc hp ha

theorem step_encode_kinds {s t : State} {e : EncCall} (hc : s.call = .encode e) (h : step s = .next t) :
    StepKind s t := by
  cases hp : e.phase with
  | seq =>
    simp only [step, fetch, fetchEncoder, hc, hp, encSeq] at h
    split at h <;> cases h
    · exact .loads e _ hc hp ‹_›
    · exact .returnsOk e hc hp ‹_›
  | maxBatch =>
    rw [step_maxBatch hc hp] at h
    split at h <;> cases h
    exact .stagesMaximal e hc hp ‹_›
  | rem =>
    rw [step_rem hc hp] at h
    split at h <;> cases h
    rename_i hr
    exact .stagesRemainder e hc hp hr.1 hr.2
  | write k =>
    simp only [step, fetch, fetchEncoder, hc, hp] at h
    exact encWrite_kinds hc hp h
  | waitWritable k =>
    simp only [step, fetch, fetchEncoder, hc, hp] at h
    exact encWaitWritable_kinds hc hp h

/-- There is no other transition. -/
theorem step_kinds {s t : State} (h : step s = .next t) : StepKind s t := by
  cases hc : s.call with
  | idle =>
    simp only [step, fetch, hc] at h
    exact startCall_kinds hc h
  | decode dl ph =>
    cases ph with
    | read => exact step_read_kinds hc h
    | wait =>
      simp only [step, fetch, hc] at h
      exact decWait_kinds hc h
  | encode e => exact step_encode_kinds hc h

end Sys2Proof.Machine
end

