-- ==== Sys2Proof/Laws/Units.lean ====
section
/-! SUPPORT. The cases of the small functions of QC and ENC, one lemma per case. -/

namespace Sys2Proof.Machine

theorem quirk_fires {k : Polarity} {a d : Nat} (h : k = .space ∧ d = 0 ∧ 10000 < a) : quirk k a d = 100000 :=
  if_pos h

theorem quirk_silent {k : Polarity} {a d : Nat} (h : ¬ (k = .space ∧ d = 0 ∧ 10000 < a)) : quirk k a d = a :=
  if_neg h

theorem normalise_pos {n : Nat} (h : 0 < n) : normalise n = n := if_neg (Nat.ne_of_gt h)

theorem normalise_zero : normalise 0 = 1 := rfl

@[simp] theorem batchSent_durations (e : EncCall) : e.batchSent.durations = e.durations := rfl
@[simp] theorem batchSent_i (e : EncCall) : e.batchSent.i = e.i := rfl
@[simp] theorem batchSent_p (e : EncCall) : e.batchSent.p = e.p := rfl
@[simp] theorem batchSent_t (e : EncCall) : e.batchSent.t = e.t := rfl
@[simp] theorem batchSent_f (e : EncCall) : e.batchSent.f = e.f - e.n := rfl
@[simp] theorem batchSent_rm (e : EncCall) : e.batchSent.rm = e.rm := rfl
@[simp] theorem batchSent_n (e : EncCall) : e.batchSent.n = e.n := rfl
@[simp] theorem batchSent_bs (e : EncCall) : e.batchSent.bs = e.bs := rfl
@[simp] theorem batchSent_phase (e : EncCall) : e.batchSent.phase = e.phase := rfl

theorem proceed_maxBatch {e : EncCall} (h : 0 < e.f) : e.proceed = { e with phase := .maxBatch } := if_pos h

theorem proceed_rem {e : EncCall} (h : e.f = 0) (hr : 0 < e.rm) : e.proceed = { e with phase := .rem } := by
  simp [EncCall.proceed, h, hr]

theorem proceed_nextIndex {e : EncCall} (h : e.f = 0) (hr : e.rm = 0) : e.proceed = e.nextIndex := by
  simp [EncCall.proceed, h, hr]

/-- The next octets of a duration are formed in one of three ways. -/
theorem proceed_cases (e : EncCall) :
    (0 < e.f ∧ e.proceed = { e with phase := .maxBatch }) ∨
    (e.f = 0 ∧ 0 < e.rm ∧ e.proceed = { e with phase := .rem }) ∨
    (e.f = 0 ∧ e.rm = 0 ∧ e.proceed = e.nextIndex) := by
  rcases Nat.eq_zero_or_pos e.f with hf | hf
  · rcases Nat.eq_zero_or_pos e.rm with hr | hr
    · exact .inr (.inr ⟨hf, hr, proceed_nextIndex hf hr⟩)
    · exact .inr (.inl ⟨hf, hr, proceed_rem hf hr⟩)
  · exact .inl ⟨hf, proceed_maxBatch hf⟩

end Sys2Proof.Machine
end

