-- ==== Sys2Proof/Tests/Slice0.lean ====
section
/-! SUPPORT. The model's own tests: the checks of WellFormed, words written out from the encodings of
spec/30_encoding.md, single steps taken from spec/95_test_vectors.md, and, for every statement that has hypotheses, a
witness that meets them all. -/

namespace Sys2Proof.Tests

open Sys2Proof.Machine Sys2Proof.Safety

/-! ### Small states -/

/-- A `decode_next(0)` call in READ. -/
def reading (q : Pol) (a : Nat) (as : List Answer) : State :=
  { State.reset with pol := q, acc := a, call := .decode 0 .read, answers := as }

/-- A `decode_next` call in WAIT. -/
def waiting (deadlineUs : Nat) (as : List Answer) : State :=
  { State.reset with pol := .space, acc := 1200, call := .decode deadlineUs .wait, answers := as }

/-- An `encode` call. -/
def encoding (e : EncCall) (as : List Answer) : State := { State.reset with call := .encode e, answers := as }

/-- The call `encode([40000, 100000])` at index 1 (vectors E13, E14), F and the phase as given. -/
def atIndexOne (f : Nat) (bs : List Byte) (ph : EncPhase) : EncCall :=
  { durations := [40000, 100000], i := 1, p := .space, t := 6250, f := f, rm := 106, n := 16, bs := bs, phase := ph }

/-- The call `encode([9000])` at index 0 (vector E12). -/
def atIndexZero (f : Nat) (bs : List Byte) (ph : EncPhase) : EncCall :=
  { durations := [9000], i := 0, p := .pulse, t := 563, f := f, rm := 51, n := 4, bs := bs, phase := ph }

/-- A finite realisation. -/
def narrow (w : Nat) (s : State) : State := { s with params := { subms := .either, accW := some w, durW := some 16 } }

def nextOf : Out → Option State
  | .next s => some s
  | .fault _ => none
  | .refused _ => none

/-! ### WellFormed -/

theorem test_wellFormed_refuses_p_zero : (Instr.p 0#7).wellFormed = false := by decide
theorem test_wellFormed_refuses_remp_zero : (Instr.remp 0#7).wellFormed = false := by decide
theorem test_wellFormed_refuses_rems_zero : (Instr.rems 0#7).wellFormed = false := by decide
theorem test_wellFormed_takes_s_zero : (Instr.s 0#7).wellFormed = true := by decide

/-! ### Decoding: words written bit by bit from the patterns of R59 (values of section 7 of 30_encoding.md) -/

theorem test_decode_strobe : decode [0b00000000#8] = .ok (.strobe, []) := rfl
theorem test_decode_p : decode [0b01001100#8, 0x97#8] = .ok (.p 38#7, [0x97#8]) := rfl
theorem test_decode_s : decode [0b10010111#8] = .ok (.s 75#7, []) := rfl
theorem test_decode_s_zero : decode [0b00000001#8] = .ok (.s 0#7, []) := rfl
theorem test_decode_received_maxp : decode [0b11111110#8] = .ok (.p 127#7, []) := rfl
theorem test_decode_received_maxs : decode [0b11111111#8] = .ok (.s 127#7, []) := rfl
theorem test_decode_rejects_nothing : decode [] = .error .noOctet := rfl
theorem test_encode_maxp : encode .maxp = 0b11111110#8 := by decide
theorem test_encode_maxs : encode .maxs = 0b11111111#8 := by decide
theorem test_encode_remp : encode (.remp 51#7) = 0b01100110#8 := by decide
theorem test_encode_rems : encode (.rems 25#7) = 0b00110011#8 := by decide
theorem test_classify_maxp : classifySent 0b11111110#8 = some .maxp := by decide
theorem test_classify_maxs : classifySent 0b11111111#8 = some .maxs := by decide
theorem test_classify_remp : classifySent 0b01100110#8 = some (.remp 51#7) := by decide
theorem test_classify_rems : classifySent 0b00110011#8 = some (.rems 25#7) := by decide
theorem test_classify_zero : classifySent 0x00#8 = none ∧ classifySent 0x01#8 = none := by decide
theorem test_table_word_too_wide : decodeTableWord 16 0x4C = none := by decide

/-! ### Vectors Q1 to Q10, and E1 to E8, E12 to E14 -/

theorem test_qc_space : ([(10000, 0), (10016, 0), (10001, 0), (10160, 16), (0, 0), (0, 2032), (999984, 0)].map
    fun x => qc .space x.1 x.2) = [10000, 100000, 100000, 10160, 1, 1, 100000] := by decide
theorem test_qc_pulse : ([(10160, 0), (0, 0), (16, 0)].map fun x => qc .pulse x.1 x.2) = [10160, 1, 16] := by decide
theorem test_ticks : [0, 7, 8, 23, 24, 600, 1200, 2039, 9000, 40000, 100000].map ticks =
    [0, 0, 1, 1, 2, 38, 75, 127, 563, 2500, 6250] := by decide
theorem test_split : [127, 128, 563, 2500, 6250].map (fun t => (fullUnits t, remainder t)) =
    [(0, 127), (1, 0), (4, 51), (19, 68), (48, 106)] := by decide

/-! ### One step of each instruction (vectors D1 to D23, E12 to E14) -/

/-- D19. -/
theorem test_strobe_fires_quirk : (nextOf (exec .strobe (reading .space 10016 []))).map
    (fun t => (t.pol, t.acc, t.results)) = some (.pulse, 0, [.event (.space 100000)]) := by decide
/-- D18. -/
theorem test_strobe_at_threshold : (nextOf (exec .strobe (reading .space 10000 []))).map
    (fun t => (t.pol, t.acc, t.results)) = some (.pulse, 0, [.event (.space 10000)]) := by decide
/-- D5. -/
theorem test_p_extends : (nextOf (exec (.p 127#7) (reading .pulse 2032 []))).map
    (fun t => (t.pol, t.acc, t.results)) = some (.pulse, 4064, []) := by decide
/-- D21. -/
theorem test_p_closes_without_quirk : (nextOf (exec (.p 1#7) (reading .space 10160 []))).map
    (fun t => (t.pol, t.acc, t.results)) = some (.pulse, 16, [.event (.space 10160)]) := by decide
/-- D4. -/
theorem test_s_starts : (nextOf (exec (.s 127#7) (reading .unset 0 []))).map
    (fun t => (t.pol, t.acc, t.results)) = some (.space, 2032, []) := by decide
/-- D9. -/
theorem test_s_closes_empty_run : (nextOf (exec (.s 0#7) (reading .pulse 0 []))).map
    (fun t => (t.pol, t.acc, t.results)) = some (.space, 0, [.event (.pulse 1)]) := by decide
/-- E12. -/
theorem test_maxp_offers_batch : (nextOf (exec .maxp (encoding (atIndexZero 4 [] .maxBatch) []))).map (·.call) =
    some (.encode (atIndexZero 4 [0xFE#8, 0xFE#8, 0xFE#8, 0xFE#8] (.write .maximal))) := by decide
/-- E14: 48 maximal octets, 16 in the first write. -/
theorem test_maxs_offers_full_batch : (nextOf (exec .maxs (encoding (atIndexOne 48 [] .maxBatch) []))).map (·.call) =
    some (.encode (atIndexOne 48 (List.replicate 16 0xFF#8) (.write .maximal))) := by decide
/-- E12: 0x66. -/
theorem test_remp_offers_octet : (nextOf (exec (.remp 51#7) (encoding (atIndexZero 0 [] .rem) []))).map (·.call) =
    some (.encode { atIndexZero 0 [0x66#8] (.write .remainder) with n := 1 }) := by decide
/-- E14: 0xD5. -/
theorem test_rems_offers_octet : (nextOf (exec (.rems 106#7) (encoding (atIndexOne 0 [] .rem) []))).map (·.call) =
    some (.encode { atIndexOne 0 [0xD5#8] (.write .remainder) with n := 1 }) := by decide

/-! ### Other steps (vectors K2, K5, K8, K9, W9, W13) -/

theorem test_placed_octet_runs_first : nextOf (step (State.reset.withFetchWord 8 0x97)) =
    nextOf (exec (.s 75#7) { reading .unset 0 [] with rxTaken := [0x97#8], rxpos := 1 }) := by decide
/-- K2. -/
theorem test_timeout_keeps_run : (nextOf (step (waiting 30000 [.wait .timedOut]))).map
    (fun t => (t.pol, t.acc, t.results, t.call)) = some (.space, 1200, [.event .timeout], .idle) := by decide
/-- K5. -/
theorem test_wait_error_is_read_error : (nextOf (step (waiting 0 [.wait .error]))).map
    (fun t => (t.pol, t.acc, t.results)) = some (.space, 1200, [.error .channelReadError]) := by decide
/-- K8. -/
theorem test_deadline_zero_never_times_out : step (waiting 0 [.wait .timedOut]) = .refused .inadmissibleAnswer := rfl
/-- K9, SUBMS `either` and `forever`. -/
theorem test_submillisecond : (nextOf (step (waiting 500 [.wait .timedOut]))).isSome = true ∧
    nextOf (step { waiting 500 [.wait .timedOut] with params := { Params.default with subms := .forever } }) = none := by
  decide
/-- W9: a partial write; the rest of the batch is offered again. -/
theorem test_partial_write : (nextOf (step (encoding (atIndexZero 4 [0xFE#8, 0xFE#8, 0xFE#8, 0xFE#8] (.write .maximal))
    [.write (.written 3)]))).map (fun t => (t.tx, t.txpos, t.call)) =
    some ([0xFE#8, 0xFE#8, 0xFE#8], 3, .encode (atIndexZero 4 [0xFE#8] (.write .maximal))) := by decide
/-- E14: a full batch of sixteen has been accepted; F falls by 16 only now, and the next batch is formed. -/
theorem test_accepted_batch_leaves_f : (nextOf (step (encoding (atIndexOne 48 (List.replicate 16 0xFF#8)
    (.write .maximal)) [.write (.written 16)]))).map (·.call) = some (.encode (atIndexOne 32 [] .maxBatch)) := by decide
/-- W13: a failed wait is a write error. -/
theorem test_failed_wait_is_write_error : (nextOf (step (encoding (atIndexZero 4 [0xFE#8] (.waitWritable .maximal))
    [.wait .error]))).map (·.results) = some [.error .channelWriteError] := by decide
/-- R12: in 17 bits, 131072 does not fit. -/
theorem test_acc_overflow_faults : exec (.p 1#7) (narrow 17 (reading .pulse 131056 [])) = .fault .accOverflow := rfl

/-! ### Witnesses: states and operands that meet the hypotheses of the statements -/

theorem witness_DecodeAndEncodeAgree : (Instr.p 1#7).wellFormed = true ∧ (Instr.rems 127#7).wellFormed = true := by decide

theorem witness_EncoderStreamHasTransmitClassesOnly : 0xFE#8 ∈ encStream [9000] ∧ 0x66#8 ∈ encStream [9000] := by decide

theorem witness_FirstOctetStartsRun : Reading (reading .unset 0 []) ∧ (reading .unset 0 []).pol = .unset := ⟨⟨0, rfl⟩, rfl⟩

theorem witness_OctetOfOtherPolarityClosesRun_pulse :
    Reading (reading .pulse 4064 []) ∧ (reading .pulse 4064 []).pol = .pulse ∧ (Instr.s 0#7).polarity = .space :=
  ⟨⟨0, rfl⟩, rfl, rfl⟩

theorem witness_OctetOfOtherPolarityClosesRun_space :
    Reading (reading .space 0 []) ∧ (reading .space 0 []).pol = .space ∧ Instr.strobe.polarity = .pulse :=
  ⟨⟨0, rfl⟩, rfl, rfl⟩

theorem witness_OctetOfSamePolarityExtendsRun :
    Reading (reading .pulse 0 []) ∧ (reading .pulse 0 []).params.accW = none ∧ (reading .pulse 0 []).pol = .pulse ∧
    Instr.strobe.polarity = .pulse ∧
    Reading (reading .space 1200 []) ∧ (reading .space 1200 []).params.accW = none ∧
    (reading .space 1200 []).pol = .space ∧ (Instr.s 127#7).polarity = .space :=
  ⟨⟨0, rfl⟩, rfl, rfl, rfl, ⟨0, rfl⟩, rfl, rfl, rfl⟩

/-- The sum at 2^17 and one tick below it. -/
theorem witness_FiniteAccumulatorFaultsOnOverflow :
    Reading (narrow 17 (reading .pulse 131056 [])) ∧ (narrow 17 (reading .pulse 131056 [])).params.accW = some 17 ∧
    (narrow 17 (reading .pulse 131056 [])).pol = .pulse ∧ (Instr.p 1#7).polarity = .pulse ∧
    2 ^ 17 ≤ 131056 + 16 * (Instr.p 1#7).magnitude.toNat ∧ 131040 + 16 * (Instr.p 1#7).magnitude.toNat < 2 ^ 17 :=
  ⟨⟨0, rfl⟩, rfl, rfl, rfl, by decide, by decide⟩

theorem witness_NoOctetValueStopsTheDecoder : Reading (reading .pulse 608 [.read (.byte 0x00#8)]) ∧
    (reading .pulse 608 [.read (.byte 0x00#8)]).params.accW = none ∧
    (reading .pulse 608 [.read (.byte 0x00#8)]).answers = .read (.byte 0x00#8) :: [] := ⟨⟨0, rfl⟩, rfl, rfl⟩

theorem witness_StrobeAfterLongSpaceReportsGap :
    Reading (reading .space 10001 []) ∧ (reading .space 10001 []).pol = .space ∧ (reading .space 10001 []).acc > 10000 ∧
    Reading (reading .pulse 10160 []) ∧ (reading .pulse 10160 []).pol = .pulse ∧ (Instr.s 0#7).polarity = .space ∧
    (reading .pulse 10160 []).acc > 0 := ⟨⟨0, rfl⟩, rfl, by decide, ⟨0, rfl⟩, rfl, rfl, by decide⟩

theorem witness_UnquirkedSpaceKeepsItsLength_threshold :
    Reading (reading .space 10000 []) ∧ (reading .space 10000 []).pol = .space ∧ Instr.strobe.polarity = .pulse ∧
    0 < (reading .space 10000 []).acc ∧ (reading .space 10000 []).acc ≤ 10000 :=
  ⟨⟨0, rfl⟩, rfl, rfl, by decide, by decide⟩

theorem witness_UnquirkedSpaceKeepsItsLength_octet :
    Reading (reading .space 10016 []) ∧ (reading .space 10016 []).pol = .space ∧ (Instr.p 1#7).polarity = .pulse ∧
    0 < (reading .space 10016 []).acc ∧ (Instr.p 1#7).magnitude ≠ 0#7 :=
  ⟨⟨0, rfl⟩, rfl, rfl, by decide, by decide⟩

theorem witness_EmptyRunIsReportedAsOne :
    Reading (reading .pulse 0 []) ∧ (reading .pulse 0 []).acc = 0 ∧ (reading .pulse 0 []).pol = .pulse ∧
    (Instr.s 38#7).polarity = .space ∧
    Reading (reading .space 0 []) ∧ (reading .space 0 []).acc = 0 ∧ (reading .space 0 []).pol = .space ∧
    Instr.strobe.polarity = .pulse := ⟨⟨0, rfl⟩, rfl, rfl, rfl, ⟨0, rfl⟩, rfl, rfl, rfl⟩

theorem witness_SentClassesAreOrdinaryWhenReceived : Reading (reading .pulse 608 []) := ⟨0, rfl⟩

theorem witness_OctetOutsideReadPhaseIsRefused :
    ¬ Reading State.reset ∧ (∀ e, State.reset.call ≠ .encode e) ∧
    ¬ Reading (encoding (atIndexZero 4 [] .maxBatch) []) ∧
    (encoding (atIndexZero 4 [] .maxBatch) []).call = .encode (atIndexZero 4 [] .maxBatch) ∧
    Instr.p 1#7 = .p 1#7 :=
  ⟨(fun h => by cases h.choose_spec), (fun _ h => by cases h), (fun h => by cases h.choose_spec), rfl, rfl⟩

theorem witness_ReceivedOctetFrame : Reading (reading .pulse 608 []) ∧
    ∃ t, exec (.s 75#7) (reading .pulse 608 []) = .next t := ⟨⟨0, rfl⟩, _, rfl⟩

theorem witness_MaximalOctetsAreBatched_pulse : (encoding (atIndexZero 4 [] .maxBatch) []).call =
    .encode (atIndexZero 4 [] .maxBatch) ∧ (atIndexZero 4 [] .maxBatch).phase = .maxBatch ∧
    0 < (atIndexZero 4 [] .maxBatch).f ∧ (atIndexZero 4 [] .maxBatch).p = .pulse := ⟨rfl, rfl, by decide, rfl⟩

theorem witness_MaximalOctetsAreBatched_space : (encoding (atIndexOne 17 [] .maxBatch) []).call =
    .encode (atIndexOne 17 [] .maxBatch) ∧ (atIndexOne 17 [] .maxBatch).phase = .maxBatch ∧
    0 < (atIndexOne 17 [] .maxBatch).f ∧ (atIndexOne 17 [] .maxBatch).p = .space := ⟨rfl, rfl, by decide, rfl⟩

theorem witness_MaximalOctetsAreBatched_accepted :
    (atIndexZero 4 [0xFE#8] (.write .maximal)).phase = .write .maximal ∧
    (atIndexZero 4 [0xFE#8] (.write .maximal)).bs ≠ [] ∧
    (encoding (atIndexZero 4 [0xFE#8] (.write .maximal)) [.write (.written 1)]).answers =
      .write (.written (atIndexZero 4 [0xFE#8] (.write .maximal)).bs.length) :: [] := by decide

theorem witness_RemainderOctetIsFormed : (encoding (atIndexZero 0 [] .rem) []).call = .encode (atIndexZero 0 [] .rem) ∧
    (atIndexZero 0 [] .rem).phase = .rem ∧ 0 < (atIndexZero 0 [] .rem).rm ∧ (atIndexZero 0 [] .rem).rm < 128 ∧
    (atIndexZero 0 [] .rem).p = .pulse ∧ (atIndexOne 0 [] .rem).phase = .rem ∧ 0 < (atIndexOne 0 [] .rem).rm ∧
    (atIndexOne 0 [] .rem).rm < 128 ∧ (atIndexOne 0 [] .rem).p = .space := by decide

theorem witness_UnexpectedSentClassIsRefused : (encoding (atIndexZero 0 [] .rem) []).call =
    .encode (atIndexZero 0 [] .rem) ∧ (atIndexZero 0 [] .rem).phase ≠ .maxBatch ∧ (atIndexZero 0 [] .rem).p ≠ .space ∧
    (atIndexZero 0 [] .rem).rm ≠ (50#7).toNat := by decide

theorem witness_SentClassFrame : (encoding (atIndexZero 0 [] .rem) []).call = .encode (atIndexZero 0 [] .rem) ∧
    ∃ t, exec (.remp 51#7) (encoding (atIndexZero 0 [] .rem) []) = .next t := ⟨rfl, _, rfl⟩

theorem witness_StepRunsTheInstruction_received :
    (reading .unset 0 [.read (.byte 0x4C#8)]).call = .decode 0 .read ∧
    (reading .unset 0 [.read (.byte 0x4C#8)]).answers = .read (.byte 0x4C#8) :: [] ∧
    (Instr.p 38#7).wellFormed = true ∧ decode [0x4C#8] = .ok (.p 38#7, []) := ⟨rfl, rfl, rfl, rfl⟩

theorem witness_StepRunsTheInstruction_sent :
    (encoding (atIndexZero 4 [] .maxBatch) []).call = .encode (atIndexZero 4 [] .maxBatch) ∧
    (atIndexZero 4 [] .maxBatch).phase = .maxBatch ∧ (atIndexZero 4 [] .maxBatch).p = .pulse ∧
    (atIndexOne 4 [] .maxBatch).phase = .maxBatch ∧ (atIndexOne 4 [] .maxBatch).p = .space ∧
    (atIndexZero 0 [] .rem).phase = .rem ∧ (atIndexZero 0 [] .rem).p = .pulse ∧ (atIndexZero 0 [] .rem).rm < 128 ∧
    (atIndexOne 0 [] .rem).phase = .rem ∧ (atIndexOne 0 [] .rem).p = .space ∧ (atIndexOne 0 [] .rem).rm < 128 := by
  decide

theorem witness_PlacedOctetRunsNext : decodeTableWord 8 0xFF = some (.s 127#7) := by decide

theorem witness_ReadPhaseAnswers : (reading .unset 0 []).call = .decode 0 .read ∧
    (reading .unset 0 [.read (.byte 0xFF#8)]).answers = .read (.byte 0xFF#8) :: [] ∧
    (reading .unset 0 [.read .wouldBlock]).answers = .read .wouldBlock :: [] ∧
    (reading .unset 0 [.read .error]).answers = .read .error :: [] := by decide

theorem witness_WaitPhaseAnswers : (waiting 1000 []).call = .decode 1000 .wait ∧
    (waiting 1000 [.wait .ready]).answers = .wait .ready :: [] ∧
    (waiting 1000 [.wait .timedOut]).answers = .wait .timedOut :: [] ∧
    (waiting 1000 [.wait .interrupted]).answers = .wait .interrupted :: [] ∧
    (waiting 1000 [.wait .error]).answers = .wait .error :: [] := by decide

theorem witness_ReadErrorKeepsTheRun : (reading .pulse 608 [.read .error]).call = .decode 0 .read ∧
    (reading .pulse 608 [.read .error]).answers = .read .error :: [] ∧
    (waiting 0 [.wait .error]).call = .decode 0 .wait ∧ (waiting 0 [.wait .error]).answers = .wait .error :: [] := by
  decide

/-- A `decode_next(0)` call about to close a run. -/
def consumedZero : State := reading .pulse 608 [.read (.byte 0x97#8)]

theorem witness_DeadlineZeroNeverTimesOut : (waiting 0 [.wait .timedOut]).call = .decode 0 .wait ∧
    (waiting 0 [.wait .timedOut]).answers = .wait .timedOut :: [] ∧
    (waiting 1000 [.wait .timedOut]).call = .decode 1000 .wait := by decide

theorem witness_DeadlineZeroNeverTimesOut_step : consumedZero.call = .decode 0 .read ∧
    ∃ t, step consumedZero = .next t ∧ t.results = consumedZero.results ++ [.event (.pulse 608)] := ⟨rfl, _, rfl, rfl⟩

theorem witness_SubMillisecondDeadlineFollowsParameter : (waiting 999 [.wait .timedOut]).call = .decode 999 .wait ∧
    (waiting 999 [.wait .timedOut]).answers = .wait .timedOut :: [] ∧ (waiting 1 []).call = .decode 1 .wait ∧
    (waiting 999 [.wait .timedOut]).params.subms ≠ .forever ∧
    ({ waiting 1 [] with params := { Params.default with subms := .forever } } : State).params.subms = .forever := by
  decide

theorem witness_WriteAnswers_write :
    (atIndexZero 4 [0xFE#8, 0xFE#8] (.write .maximal)).phase = .write .maximal ∧
    (atIndexZero 4 [0xFE#8, 0xFE#8] (.write .maximal)).bs ≠ [] ∧
    1 < (atIndexZero 4 [0xFE#8, 0xFE#8] (.write .maximal)).bs.length ∧
    (encoding (atIndexZero 4 [0xFE#8, 0xFE#8] (.write .maximal)) [.write (.written 2)]).answers =
      .write (.written (atIndexZero 4 [0xFE#8, 0xFE#8] (.write .maximal)).bs.length) :: [] ∧
    (encoding (atIndexZero 0 [0x66#8] (.write .remainder)) [.write (.written 1)]).answers =
      .write (.written (atIndexZero 0 [0x66#8] (.write .remainder)).bs.length) :: [] ∧
    (atIndexZero 0 [0x66#8] (.write .remainder)).phase = .write .remainder ∧
    (atIndexZero 0 [0x66#8] (.write .remainder)).bs ≠ [] ∧
    (encoding (atIndexZero 4 [0xFE#8] (.write .maximal)) [.write .wouldBlock]).answers = .write .wouldBlock :: [] ∧
    (encoding (atIndexZero 4 [0xFE#8] (.write .maximal)) [.write .interrupted]).answers = .write .interrupted :: [] ∧
    (encoding (atIndexZero 4 [0xFE#8] (.write .maximal)) [.write .error]).answers = .write .error :: [] := by decide

theorem witness_WriteAnswers_wait :
    (atIndexZero 4 [0xFE#8] (.waitWritable .maximal)).phase = .waitWritable .maximal ∧
    (encoding (atIndexZero 4 [0xFE#8] (.waitWritable .maximal)) [.wait .ready]).answers = .wait .ready :: [] ∧
    (encoding (atIndexZero 4 [0xFE#8] (.waitWritable .maximal)) [.wait .interrupted]).answers =
      .wait .interrupted :: [] ∧
    (encoding (atIndexZero 4 [0xFE#8] (.waitWritable .maximal)) [.wait .error]).answers = .wait .error :: [] := by
  decide

theorem witness_WrittenZeroIsWouldBlock :
    (encoding (atIndexZero 4 [0xFE#8] (.write .maximal)) [.write (.written 0)]).call =
      .encode (atIndexZero 4 [0xFE#8] (.write .maximal)) ∧
    (atIndexZero 4 [0xFE#8] (.write .maximal)).phase = .write .maximal ∧
    (atIndexZero 4 [0xFE#8] (.write .maximal)).bs ≠ [] ∧
    (encoding (atIndexZero 4 [0xFE#8] (.write .maximal)) [.write (.written 0)]).answers =
      .write (.written 0) :: [] := by decide

theorem witness_EncoderLoadsDuration : (encoding (.start [7, 2040]) []).call = .encode (.start [7, 2040]) ∧
    (EncCall.start [7, 2040]).phase = .seq ∧ (EncCall.start [7, 2040]).durations[(EncCall.start [7, 2040]).i]? = some 7 ∧
    (EncCall.start [7, 2040]).nextIndex.durations[(EncCall.start [7, 2040]).nextIndex.i]? = some 2040 := by decide

theorem witness_EncoderReturnsOkAfterLastDuration : (encoding (.start []) []).call = .encode (.start []) ∧
    (EncCall.start []).phase = .seq ∧ (EncCall.start []).durations.length ≤ (EncCall.start []).i := by decide

theorem witness_HostCallsStart : State.reset.call = .idle ∧ State.reset.hostCalls = [] ∧
    ({ State.reset with hostCalls := [.decodeNext 5000] } : State).hostCalls = .decodeNext 5000 :: [] ∧
    ({ State.reset with hostCalls := [.encode [600]] } : State).hostCalls = .encode [600] :: [] ∧
    State.reset.params.durW = none ∧
    (narrow 17 { State.reset with hostCalls := [.encode [65536]] }).hostCalls = .encode [65536] :: [] ∧
    (narrow 17 State.reset).params.durW = some 16 ∧ 65536 ∈ [65536] ∧ 2 ^ 16 ≤ 65536 := by decide

/-- The longest duration that 16 bits hold. -/
theorem witness_HostCallsStart_fits :
    (narrow 17 { State.reset with hostCalls := [.encode [65535]] }).call = .idle ∧
    (narrow 17 { State.reset with hostCalls := [.encode [65535]] }).hostCalls = .encode [65535] :: [] ∧
    (narrow 17 State.reset).params.durW = some 16 ∧ (∀ d ∈ [65535], d < 2 ^ 16) := by decide

/-- A `decode_next` call and an `encode` call in progress while the host asks another call. -/
theorem witness_HostCallsStart_inProgress :
    (∃ t, step { waiting 0 [.wait .ready] with hostCalls := [.encode [600]] } = .next t) ∧
    (waiting 0 [.wait .ready]).call = .decode 0 .wait ∧
    (∃ t, step { encoding (.start [600]) [] with hostCalls := [.decodeNext 0] } = .next t) ∧
    (encoding (.start [600]) []).call = .encode (.start [600]) := ⟨⟨_, rfl⟩, rfl, ⟨_, rfl⟩, rfl⟩

theorem witness_ResetInputReachesOnlyTheBlock :
    ({ State.reset with pol := .space, acc := 1200, hostCalls := [.reset], tx := [0x4C#8] } : State).call = .idle ∧
    ({ State.reset with pol := .space, acc := 1200, hostCalls := [.reset], tx := [0x4C#8] } : State).hostCalls =
      .reset :: [] := by decide

theorem witness_ExhaustedAnswersAreStuck : (reading .unset 0 []).answers = [] ∧
    (reading .unset 0 []).call = .decode 0 .read ∧
    (encoding (atIndexZero 4 [0xFE#8] (.write .maximal)) []).answers = [] ∧
    (atIndexZero 4 [0xFE#8] (.write .maximal)).phase = .write .maximal ∧
    (atIndexZero 4 [0xFE#8] (.write .maximal)).bs ≠ [] ∧
    (atIndexZero 4 [0xFE#8] (.waitWritable .maximal)).phase = .waitWritable .maximal := by decide

theorem witness_InadmissibleAnswersAreRefused :
    (reading .unset 0 [.wait .ready]).answers = .wait .ready :: [] ∧
    (waiting 0 [.read .wouldBlock]).answers = .read .wouldBlock :: [] ∧
    (atIndexZero 4 [0xFE#8] (.write .maximal)).bs ≠ [] ∧ (atIndexZero 4 [0xFE#8] (.write .maximal)).bs.length < 2 ∧
    (encoding (atIndexZero 4 [0xFE#8] (.write .maximal)) [.write (.written 2)]).answers = .write (.written 2) :: [] ∧
    (encoding (atIndexZero 4 [0xFE#8] (.waitWritable .maximal)) [.wait .timedOut]).answers =
      .wait .timedOut :: [] := by decide

/-- From reset, one octet 0x4C consumed; the next answer closes the run. -/
def consumedOne : State :=
  { reading .pulse 608 [.read (.byte 0x97#8)] with rxTaken := [0x4C#8], rxpos := 1 }

theorem witness_DecInv_step : DecInv consumedOne ∧ ∃ t, step consumedOne = .next t := ⟨⟨rfl, rfl⟩, _, rfl⟩

/-- From reset, the octets 0x4C and 0x97 consumed: one event. -/
def consumedTwo : State :=
  { State.reset with
    pol := .space, acc := 1200, rxTaken := [0x4C#8, 0x97#8], rxpos := 2, results := [.event (.pulse 608)] }

theorem witness_EventsAlternate : DecInv consumedTwo ∧ (runEvents consumedTwo).head? = some (.pulse 608) ∧
    consumedTwo.rxTaken.head? = some 0x4C#8 ∧ (runEvents consumedTwo).getLast? = some (.pulse 608) :=
  ⟨⟨rfl, rfl⟩, rfl, rfl, rfl⟩

theorem witness_ReportedDurationsAreTicksOrOne : DecInv consumedTwo ∧ Event.pulse 608 ∈ runEvents consumedTwo :=
  ⟨⟨rfl, rfl⟩, by decide⟩

/-- `encode([9000])` with three octets accepted and one of the batch on offer. -/
def halfSent (as : List Answer) : State :=
  { encoding (atIndexZero 4 [0xFE#8] (.write .maximal)) as with tx := [0xFE#8, 0xFE#8, 0xFE#8], txpos := 3 }

theorem halfSent_encInv (as : List Answer) : EncInv (halfSent as) :=
  ⟨Nat.le_refl 3, rfl, ⟨9000, rfl, rfl, rfl, rfl, by decide⟩, by decide, by decide, by decide, by decide, by decide⟩

theorem witness_EncoderStreamIsKept : EncInv (halfSent [.write (.written 1)]) ∧
    ∃ t, step (halfSent [.write (.written 1)]) = .next t := ⟨halfSent_encInv _, _, rfl⟩

theorem witness_WriteErrorLeavesStrictPrefix : EncInv (halfSent [.write .error]) ∧
    ∃ t, step (halfSent [.write .error]) = .next t ∧
      t.results = (halfSent [.write .error]).results ++ [.error .channelWriteError] :=
  ⟨halfSent_encInv _, _, rfl, rfl⟩

/-- `encode([600])` with its one octet accepted. -/
def allSent : State :=
  { encoding { durations := [600], i := 1, p := .pulse, t := 38, f := 0, rm := 38, n := 1, bs := [], phase := .seq } []
    with tx := [0x4C#8], txpos := 1 }

theorem witness_OkMeansFullyTransmitted : EncInv allSent ∧
    ∃ t, step allSent = .next t ∧ t.results = allSent.results ++ [.ok] :=
  ⟨⟨by decide, rfl, trivial⟩, _, rfl, rfl⟩

theorem witness_IssuedOctetsAreNeverOutOfTurn :
    EncInv { encoding (atIndexZero 4 [] .maxBatch) [] with tx := [], txpos := 0 } :=
  ⟨by decide, rfl, ⟨9000, rfl, rfl, rfl, rfl, by decide⟩, by decide⟩

theorem witness_AccumulatorStaysInTicks : consumedOne.acc % 16 = 0 ∧ ∃ t, step consumedOne = .next t := ⟨rfl, _, rfl⟩

theorem witness_FiniteWidthIsKept : AccBounded (narrow 17 consumedOne) ∧ ∃ t, step (narrow 17 consumedOne) = .next t :=
  ⟨fun w h => by cases h; exact ⟨by decide, by decide, fun _ h => by cases h⟩, _, rfl⟩

theorem witness_OnlyResetUnsetsPolarity : (∃ t, step consumedOne = .next t) ∧ consumedOne.pol ≠ .unset ∧
    ¬ ResetsBlock consumedOne := ⟨⟨_, rfl⟩, by decide, fun h => by cases h.1⟩

theorem witness_OnlyOctetsChangeTheAccumulator : ∃ t, step consumedOne = .next t ∧ t.acc ≠ consumedOne.acc ∧
    ¬ ResetsBlock consumedOne := ⟨_, rfl, by decide, fun h => by cases h.1⟩

theorem witness_EncoderIgnoresTheAccumulator : (halfSent []).call = .encode (atIndexZero 4 [0xFE#8] (.write .maximal)) :=
  rfl

theorem witness_DecoderIgnoresTx : consumedOne.call = .decode 0 .read := rfl

theorem witness_OctetsAreConsumedInOrder : (∃ t, step consumedOne = .next t) ∧ ¬ ResetsBlock consumedOne :=
  ⟨⟨_, rfl⟩, fun h => by cases h.1⟩

/-- An octet of duration 0 that extends a run is consumed, though ACC and POL stay. -/
theorem witness_OctetsAreConsumedInOrder_strobe : ∃ t, step (reading .pulse 608 [.read (.byte 0x00#8)]) = .next t ∧
    t.rxTaken = [0x00#8] ∧ t.acc = 608 ∧ t.pol = .pulse ∧ ¬ ResetsBlock (reading .pulse 608 [.read (.byte 0x00#8)]) :=
  ⟨_, rfl, rfl, rfl, rfl, fun h => by cases h.1⟩

theorem witness_TxIsAppendOnly : ∃ t, step (halfSent [.write (.written 1)]) = .next t := ⟨_, rfl⟩

theorem witness_OneResultEndsTheCall : (∃ t, step consumedOne = .next t ∧ t.results ≠ consumedOne.results) ∧
    ¬ ResetsBlock consumedOne := ⟨⟨_, rfl, by decide⟩, fun h => by cases h.1⟩

theorem witness_ParametersAreFixed : ∃ t, step (narrow 17 consumedOne) = .next t := ⟨_, rfl⟩

/-- Two octets of a first run, and one octet of a run in progress. -/
theorem witness_RunGivesExactlyOneEvent :
    (reading .unset 0 (byteAnswers [0xFE#8, 0xFE#8, 0x01#8])).call = .decode 0 .read ∧
    (reading .unset 0 (byteAnswers [0xFE#8, 0xFE#8, 0x01#8])).params.accW = none ∧
    (reading .unset 0 (byteAnswers [0xFE#8, 0xFE#8, 0x01#8])).pol = .unset ∧
    (∀ b ∈ [0xFE#8, 0xFE#8], polarityOf b = .pulse) ∧ polarityOf 0x01#8 ≠ .pulse ∧
    (reading .unset 0 (byteAnswers [0xFE#8, 0xFE#8, 0x01#8])).answers =
      byteAnswers ([0xFE#8, 0xFE#8] ++ [0x01#8]) ++ [] ∧
    (reading .space 1200 []).pol.run = some .space := by decide

theorem witness_EveryEncodeCallCanComplete :
    ({ State.reset with hostCalls := [.encode [600, 0, 600]] } : State).call = .idle ∧
    ({ State.reset with hostCalls := [.encode [600, 0, 600]] } : State).hostCalls = .encode [600, 0, 600] :: [] ∧
    (∀ d ∈ [600, 0, 600], durationFits State.reset.params d = true) := by decide

end Sys2Proof.Tests
end

/-! The dispatch of R79 is total where ACC is unbounded, and a read that hands over an octet runs that dispatch. -/

namespace Sys2Proof.Proofs.ReadOctet

open Sys2Proof.Machine Sys2Proof.Safety

/-- Every length fits an unbounded ACC (R12). -/
theorem accFits_of_unbounded {p : Params} (h : p.accW = none) (v : Nat) : accFits p v = true := by
  simp [accFits, h]

/-- The READ phase (R75): the octet at the head of RX is taken off, and the dispatch of R79 runs on its operands. -/
theorem step_read_byte {s : State} {dl : Nat} {b : Byte} {rest : List Answer} (hc : s.call = .decode dl .read)
    (ha : s.answers = .read (.byte b) :: rest) :
    step s = decOperands (polarityOf b) (durationOf b) ((s.withAnswers rest).takeOctet b) := by
  have hr : rxTryRead s = .answered (.byte b) ((s.withAnswers rest).takeOctet b) := by simp [rxTryRead, ha]
  have hs : step s = exec (decodeOctet b) ((s.withAnswers rest).takeOctet b) := by
    simp [step, fetch, fetchOctet, hc, hr]
  rw [hs, exec_decodeOctet (by simpa using hc)]

/-- R79, R82: EXTEND alone can stop, and only where the longer run does not fit ACC. -/
theorem decOperands_total {p : Polarity} {d : Nat} {s : State} (hfit : accFits s.params (s.acc + d) = true) :
    ∃ t, decOperands p d s = .next t := by
  cases hk : s.pol.run with
  | none => exact ⟨decStart p d s, by simp [decOperands, hk]⟩
  | some k =>
    by_cases hp : p = k
    · exact ⟨s.withDec (s.acc + d) s.pol, by simp [decOperands, decExtend, hk, hp, hfit]⟩
    · exact ⟨decClose k p d s, by simp [decOperands, hk, hp]⟩

/-- Settles O8: an octet of any value is dispatched by R79, which stops only for a length that does not fit ACC. -/
theorem noOctetValueStopsTheDecoder : Obligations.NoOctetValueStopsTheDecoder := by
  intro s b rest ⟨dl, hc⟩ hw ha
  rw [step_read_byte hc ha]
  exact decOperands_total (accFits_of_unbounded hw _)

end Sys2Proof.Proofs.ReadOctet

/-! What an octet does to the run in progress, one equation per arm of R79: START, CLOSE and EXTEND, for every class. -/

namespace Sys2Proof.Proofs.OctetDispatch

open Sys2Proof.Machine Sys2Proof.Safety Sys2Proof.Proofs.ReadOctet

/-! ### The arms of R79 -/

theorem decOperands_of_no_run {p : Polarity} {d : Nat} {s : State} (h : s.pol.run = none) :
    decOperands p d s = .next (decStart p d s) := by
  simp [decOperands, h]

theorem decOperands_of_ne {p k : Polarity} {d : Nat} {s : State} (h : s.pol.run = some k) (hp : p ≠ k) :
    decOperands p d s = .next (decClose k p d s) := by
  simp [decOperands, h, hp]

theorem decOperands_of_same {p : Polarity} {d : Nat} {s : State} (h : s.pol.run = some p) :
    decOperands p d s = decExtend d s := by
  simp [decOperands, h]

theorem decExtend_of_fits {d : Nat} {s : State} (h : accFits s.params (s.acc + d) = true) :
    decExtend d s = .next { s with acc := s.acc + d } :=
  if_pos h

/-! ### A class in the READ phase -/

/-- R81: a class of another polarity than the run's closes the run. -/
theorem exec_closes_run {i : Instr} {s : State} {k : Polarity} (hr : Reading s) (hk : s.pol.run = some k)
    (hi : i.polarity ≠ k) : exec i s = .next (decClose k i.polarity (16 * i.magnitude.toNat) s) := by
  obtain ⟨dl, hc⟩ := hr
  rw [exec_reading hc, decOperands_of_ne hk hi]

/-- R82: a class of the run's own polarity extends the run, where the longer run fits ACC. -/
theorem exec_extends_run {i : Instr} {s : State} (hr : Reading s) (hk : s.pol.run = some i.polarity)
    (hfit : accFits s.params (s.acc + 16 * i.magnitude.toNat) = true) :
    exec i s = .next { s with acc := s.acc + 16 * i.magnitude.toNat } := by
  obtain ⟨dl, hc⟩ := hr
  rw [exec_reading hc, decOperands_of_same hk, decExtend_of_fits hfit]

/-- Settles O4: every class is dispatched by R79, and with no run in progress R79 is START. -/
theorem firstOctetStartsRun : Obligations.FirstOctetStartsRun := by
  intro i s ⟨dl, hc⟩ hp
  have hk : s.pol.run = none := by rw [hp]; rfl
  rw [exec_reading hc, decOperands_of_no_run hk]
  rfl

/-- Settles O5: the polarities of the octet and of the run differ, so R79 is CLOSE. -/
theorem octetOfOtherPolarityClosesRun : Obligations.OctetOfOtherPolarityClosesRun := by
  intro i s hr
  refine ⟨fun hp hi => ?_, fun hp hi => ?_⟩
  · rw [exec_closes_run (k := .pulse) hr (by rw [hp]; rfl) (by simp [hi]), hi]
    rfl
  · rw [exec_closes_run (k := .space) hr (by rw [hp]; rfl) (by simp [hi]), hi]
    rfl

/-- Settles O6: the polarities of the octet and of the run are the same, so R79 is EXTEND, and every sum fits. -/
theorem octetOfSamePolarityExtendsRun : Obligations.OctetOfSamePolarityExtendsRun := by
  intro i s hr hw
  have hfit := accFits_of_unbounded hw (s.acc + 16 * i.magnitude.toNat)
  exact ⟨fun hp hi => exec_extends_run hr (by rw [hp, hi]; rfl) hfit,
    fun hp hi => exec_extends_run hr (by rw [hp, hi]; rfl) hfit⟩

end Sys2Proof.Proofs.OctetDispatch

/-! The answers to the two primitives a `decode_next` call asks: one equation of the step per phase and answer. -/

namespace Sys2Proof.Proofs.DecoderAnswers

open Sys2Proof.Machine Sys2Proof.Safety

/-! ### What the primitives give for each answer -/

@[simp] theorem andThen_answered {α : Type} (a : α) (s : State) (k : α → State → Out) :
    (Asked.answered a s).andThen k = k a s := rfl

@[simp] theorem andThen_inadmissible {α : Type} (k : α → State → Out) :
    (Asked.inadmissible : Asked α).andThen k = .refused .inadmissibleAnswer := rfl

/-- The converse of `waitReady_answered`: every answer of the wait is taken, `TimedOut` where it is admissible. -/
theorem waitReady_of_answer {m : Bool} {s : State} {a : WaitAnswer} {rest : List Answer}
    (ha : s.answers = .wait a :: rest) (hm : a = .timedOut → m = true) :
    waitReady m s = .answered a (s.withAnswers rest) := by
  cases a with
  | timedOut => simp [waitReady, ha, hm]
  | ready => simp [waitReady, ha]
  | interrupted => simp [waitReady, ha]
  | error => simp [waitReady, ha]

theorem waitReady_timedOut_inadmissible {s : State} {rest : List Answer}
    (ha : s.answers = .wait .timedOut :: rest) : waitReady false s = .inadmissible := by
  simp [waitReady, ha]

theorem timeOutAdmissible_zero (p : Params) : timeOutAdmissible p 0 = false := rfl

theorem timeOutAdmissible_of_le {p : Params} {dl : Nat} (h : 1000 ≤ dl) : timeOutAdmissible p dl = true := by
  have h0 : dl ≠ 0 := by omega
  simp [timeOutAdmissible, h0, h]

theorem withCall_self {s : State} {c : Call} (h : s.call = c) : s.withCall c = s := by
  subst h
  rfl

/-! ### The READ phase (R75) -/

section Read

variable {s : State} {dl : Nat} {rest : List Answer} (hc : s.call = .decode dl .read)
include hc

theorem step_read_octet {b : Byte} (ha : s.answers = .read (.byte b) :: rest) :
    step s = exec (decodeOctet b) ((s.withAnswers rest).takeOctet b) := by
  simp [step, fetch, fetchOctet, rxTryRead, hc, ha]

theorem step_read_wouldBlock (ha : s.answers = .read .wouldBlock :: rest) :
    step s = .next ((s.withAnswers rest).withCall (.decode dl .wait)) := by
  simp [step, fetch, fetchOctet, rxTryRead, hc, ha]

theorem step_read_error (ha : s.answers = .read .error :: rest) :
    step s = .next ((s.withAnswers rest).raise .channelReadError) := by
  simp [step, fetch, fetchOctet, rxTryRead, hc, ha]

end Read

/-! ### The WAIT phase (R76, R77) -/

section Wait

variable {s : State} {dl : Nat} {rest : List Answer} (hc : s.call = .decode dl .wait)
include hc

theorem step_wait : step s = decWait dl s := by
  simp [step, fetch, hc]

theorem step_wait_ready (ha : s.answers = .wait .ready :: rest) :
    step s = .next ((s.withAnswers rest).withCall (.decode dl .read)) := by
  simp [step_wait hc, decWait, waitReady_of_answer ha]

theorem step_wait_timedOut (ha : s.answers = .wait .timedOut :: rest)
    (hm : timeOutAdmissible s.params dl = true) : step s = .next ((s.withAnswers rest).emit .timeout) := by
  simp [step_wait hc, decWait, waitReady_of_answer ha, hm]

theorem step_wait_timedOut_refused (ha : s.answers = .wait .timedOut :: rest)
    (hm : timeOutAdmissible s.params dl = false) : step s = .refused .inadmissibleAnswer := by
  simp [step_wait hc, decWait, hm, waitReady_timedOut_inadmissible ha]

/-- An interrupted wait leaves the call as it stands, so its deadline with it. -/
theorem step_wait_interrupted (ha : s.answers = .wait .interrupted :: rest) :
    step s = .next (s.withAnswers rest) := by
  have hcall : (s.withAnswers rest).withCall (.decode dl .wait) = s.withAnswers rest := withCall_self hc
  simp [step_wait hc, decWait, waitReady_of_answer ha, hcall]

theorem step_wait_error (ha : s.answers = .wait .error :: rest) :
    step s = .next ((s.withAnswers rest).raise .channelReadError) := by
  simp [step_wait hc, decWait, waitReady_of_answer ha]

end Wait

/-! ### Where a Timeout comes from -/

theorem ofRun_ne_timeout (k : Polarity) (n : Nat) : Event.ofRun k n ≠ .timeout := by
  cases k <;> simp [Event.ofRun]

/-- R77, R83: of all transitions, only a wait that its deadline lets time out returns Timeout. -/
theorem timeOutAdmissible_of_returns_timeout {s t : State} (h : StepKind s t)
    (hr : t.results = s.results ++ [.event .timeout]) :
    ∃ dl, s.call = .decode dl .wait ∧ timeOutAdmissible s.params dl = true := by
  cases h
  case waitTimesOut dl _ hc _ hm => exact ⟨dl, hc, hm⟩
  case octetCloses => simp [decClose, ofRun_ne_timeout] at hr
  all_goals simp [decStart] at hr

/-! ### The obligations -/

/-- Settles O22, by the three equations of the READ phase. -/
theorem readPhaseAnswers : Obligations.ReadPhaseAnswers := fun _ _ _ hc =>
  ⟨fun _ ha => step_read_octet hc ha, step_read_wouldBlock hc, step_read_error hc⟩

/-- Settles O23, by the equations of the WAIT phase; from 1000 us on a time-out is admissible. -/
theorem waitPhaseAnswers : Obligations.WaitPhaseAnswers := fun _ _ _ hc =>
  ⟨step_wait_ready hc, fun ha hd => step_wait_timedOut hc ha (timeOutAdmissible_of_le hd),
    step_wait_interrupted hc, step_wait_error hc⟩

/-- Settles O24: an `Error` of either primitive raises ChannelReadError in the state without that answer. -/
theorem readErrorKeepsTheRun : Obligations.ReadErrorKeepsTheRun := by
  intro s dl rest h
  have hs : step s = .next ((s.withAnswers rest).raise .channelReadError) := by
    obtain ⟨hc, ha⟩ | ⟨hc, ha⟩ := h
    · exact step_read_error hc ha
    · exact step_wait_error hc ha
  exact ⟨_, hs, by simp⟩

/-- Settles O25: a deadline of 0 admits no time-out, and a Timeout comes from an admissible one only. -/
theorem deadlineZeroNeverTimesOut : Obligations.DeadlineZeroNeverTimesOut := by
  refine ⟨fun s dl rest hc ha => ⟨?_, fun hd => ?_⟩, fun s t ph hc h hr => ?_⟩
  · rintro rfl t ht
    rw [step_wait_timedOut_refused hc ha (timeOutAdmissible_zero _)] at ht
    cases ht
  · exact ⟨_, step_wait_timedOut hc ha (timeOutAdmissible_of_le hd), by simp⟩
  · obtain ⟨dl, hc', hm⟩ := timeOutAdmissible_of_returns_timeout (step_kinds h) hr
    obtain ⟨rfl, -⟩ : 0 = dl ∧ ph = .wait := by simpa [hc] using hc'
    rw [timeOutAdmissible_zero] at hm
    cases hm

end Sys2Proof.Proofs.DecoderAnswers

/-! What QC reports (R100 to R103), one equation of `qc` per case, and from them the events of a closed run. -/

namespace Sys2Proof.Proofs.QuirkCorrector

open Sys2Proof.Machine Sys2Proof.Proofs.OctetDispatch

/-! ### The cases of `qc` -/

/-- R100: the override is not 0, so the normalisation leaves it. -/
theorem qc_fires {k : Polarity} {a d : Nat} (h : k = .space ∧ d = 0 ∧ 10000 < a) : qc k a d = 100000 := by
  rw [qc, quirk_fires h, normalise_pos (by decide)]

/-- R101: a run of length 0 is below the threshold, so only the normalisation acts on it. -/
theorem qc_zero (k : Polarity) (d : Nat) : qc k 0 d = 1 := by
  rw [qc, quirk_silent (by omega), normalise_zero]

theorem qc_silent {k : Polarity} {a d : Nat} (h : ¬ (k = .space ∧ d = 0 ∧ 10000 < a)) (ha : 0 < a) :
    qc k a d = a := by
  rw [qc, quirk_silent h, normalise_pos ha]

/-- R100: the quirk is a matter of Space runs. -/
theorem qc_pulse {a : Nat} (d : Nat) (ha : 0 < a) : qc .pulse a d = a :=
  qc_silent (by simp) ha

/-! ### The obligations -/

/-- Settles O9, by the three cases of `qc`: the quirk fires, the run is empty, or its length is kept. -/
theorem quirkCorrectorFunction : Obligations.QuirkCorrectorFunction := by
  intro k a d
  by_cases hq : k = .space ∧ d = 0 ∧ a > 10000
  · rw [qc_fires hq, if_pos hq]
    exact ⟨rfl, by decide⟩
  · obtain rfl | ha := Nat.eq_zero_or_pos a
    · simp [qc_zero]
    · rw [qc_silent hq ha, if_neg hq, if_neg (Nat.ne_of_gt ha)]
      exact ⟨rfl, ha⟩

/-- Settles O10: CLOSE reports `qc` of the run; the strobe's duration is 0, so a long Space run has the override, and a
Pulse run keeps its length. -/
theorem strobeAfterLongSpaceReportsGap : Obligations.StrobeAfterLongSpaceReportsGap := by
  refine ⟨fun s hr hp ha => ?_, fun i s hr hp hi ha => ?_⟩
  · have hgap : qc .space s.acc (16 * Instr.strobe.magnitude.toNat) = 100000 := qc_fires ⟨rfl, rfl, ha⟩
    rw [(octetOfOtherPolarityClosesRun .strobe s hr).2 hp rfl, hgap]
    rfl
  · rw [(octetOfOtherPolarityClosesRun i s hr).1 hp hi, qc_pulse _ ha]

/-- Settles O12: CLOSE reports `qc` of the run, which is 1 at length 0 whatever the polarity and the octet. -/
theorem emptyRunIsReportedAsOne : Obligations.EmptyRunIsReportedAsOne := by
  intro i s hr ha
  obtain ⟨hpulse, hspace⟩ := octetOfOtherPolarityClosesRun i s hr
  rw [ha, qc_zero] at hpulse hspace
  exact ⟨hpulse, hspace⟩

end Sys2Proof.Proofs.QuirkCorrector

/-! The octet of a class and the class of an octet (R59): decoding undoes encoding, and what ENC sends is the octet of
a transmit class. -/

namespace Sys2Proof.Proofs.OctetClasses

open Sys2Proof.Machine Sys2Proof.Safety

/-! ### The receive rows -/

theorem decodeOctet_spaceOctet (m : Mag7) : decodeOctet (m ++ 1#1) = .s m := by
  revert m; decide

/-- R59: the Pulse octet of magnitude 0 is STROBE, which stands above P. -/
theorem decodeOctet_pulseOctet {m : Mag7} (h : m ≠ 0#7) : decodeOctet (m ++ 0#1) = .p m := by
  revert m; decide

/-- Of every class the decoder reads the receive class of its octet. -/
theorem decodeOctet_encode {i : Instr} (h : i.wellFormed = true) : decodeOctet (encode i) = i.asReceived := by
  cases i with
  | strobe => rfl
  | p m => exact decodeOctet_pulseOctet (by simpa [Instr.wellFormed] using h)
  | s m => exact decodeOctet_spaceOctet m
  | maxp => rfl
  | maxs => rfl
  | remp r => exact decodeOctet_pulseOctet (by simpa [Instr.wellFormed] using h)
  | rems r => exact decodeOctet_spaceOctet r

/-- The three receive rows cover the 256 octets, and each octet is that of its row. -/
theorem encode_decodeOctet (b : Byte) :
    (decodeOctet b).wellFormed = true ∧ (decodeOctet b).asReceived = decodeOctet b ∧ encode (decodeOctet b) = b := by
  revert b; decide

/-- Settles O2: a stream is decoded octet by octet, and on octets the two directions undo each other. -/
theorem decodeAndEncodeAgree : Obligations.DecodeAndEncodeAgree := by
  refine ⟨fun i rest h => ?_, fun b rest => ⟨decodeOctet b, rfl, encode_decodeOctet b⟩⟩
  rw [decode, decodeOctet_encode h]

/-! ### The octets ENC forms (R57, R58), field by field -/

theorem polarityOf_maximalOctet (p : Polarity) : polarityOf (maximalOctet p) = p := by
  cases p <;> decide

theorem durationOf_maximalOctet (p : Polarity) : durationOf (maximalOctet p) = 2032 := by
  cases p <;> decide

theorem magField_maximalOctet (p : Polarity) : magField (maximalOctet p) = 127#7 := by
  cases p <;> decide

/-- A remainder below 128 is the value of a magnitude field. -/
theorem toNat_ofNat_remainder {rm : Nat} (h : rm < 128) : (BitVec.ofNat 7 rm).toNat = rm := by
  rw [BitVec.toNat_ofNat]
  exact Nat.mod_eq_of_lt h

theorem remainderOctet_fields_mag7 (r : Mag7) (p : Polarity) :
    (remainderOctet r.toNat p).toNat = 2 * r.toNat + polarityBit p ∧
    (magField (remainderOctet r.toNat p)).toNat = r.toNat ∧ polarityOf (remainderOctet r.toNat p) = p ∧
    durationOf (remainderOctet r.toNat p) = 16 * r.toNat := by
  revert r; cases p <;> decide

/-- R57: value, magnitude, polarity and duration of the octet `(Rm << 1) | p`. -/
theorem remainderOctet_fields {rm : Nat} (p : Polarity) (h : rm < 128) :
    (remainderOctet rm p).toNat = 2 * rm + polarityBit p ∧ (magField (remainderOctet rm p)).toNat = rm ∧
    polarityOf (remainderOctet rm p) = p ∧ durationOf (remainderOctet rm p) = 16 * rm := by
  have hr := remainderOctet_fields_mag7 (BitVec.ofNat 7 rm) p
  rwa [toNat_ofNat_remainder h] at hr

/-! ### The transmit rows -/

/-- What R61 says of an octet ENC sends. -/
def IsSent (b : Byte) : Prop :=
  b ≠ 0x00#8 ∧ b ≠ 0x01#8 ∧ ∃ i : Instr, classifySent b = some i ∧ i.wellFormed = true ∧ encode i = b

/-- The transmit rows cover the octets of magnitude not 0. -/
theorem classifySent_of_magField {b : Byte} (h : magField b ≠ 0#7) :
    b ≠ 0x00#8 ∧ b ≠ 0x01#8 ∧ (classifySent b).any (fun i => i.wellFormed && encode i == b) = true := by
  revert b; decide

theorem isSent_of_magField {b : Byte} (h : magField b ≠ 0#7) : IsSent b := by
  obtain ⟨h0, h1, hc⟩ := classifySent_of_magField h
  exact ⟨h0, h1, by simpa [Option.any_eq_true] using hc⟩

theorem isSent_maximalOctet (p : Polarity) : IsSent (maximalOctet p) :=
  isSent_of_magField (by rw [magField_maximalOctet]; decide)

theorem isSent_remainderOctet {rm : Nat} (p : Polarity) (h0 : 0 < rm) (h : rm < 128) :
    IsSent (remainderOctet rm p) := by
  obtain ⟨-, hm, -, -⟩ := remainderOctet_fields p h
  refine isSent_of_magField fun hz => ?_
  rw [hz] at hm
  exact Nat.ne_of_lt h0 hm

/-- The octets of one duration are its maximal octets and its remainder octet. -/
theorem mem_encOne {d : Nat} {p : Polarity} {b : Byte} (h : b ∈ encOne d p) :
    b = maximalOctet p ∨ 0 < remainder (ticks d) ∧ b = remainderOctet (remainder (ticks d)) p := by
  obtain hb | hb := List.mem_append.mp h
  · exact .inl (List.eq_of_mem_replicate hb)
  · unfold remainderPart at hb
    split at hb
    · exact .inr ⟨‹_›, List.mem_singleton.mp hb⟩
    · cases hb

theorem isSent_of_mem_encFrom {ds : List Nat} {i : Nat} {b : Byte} (h : b ∈ encFrom i ds) : IsSent b := by
  induction ds generalizing i with
  | nil => cases h
  | cons d ds ih =>
    obtain hb | hb := List.mem_append.mp h
    · obtain rfl | ⟨h0, rfl⟩ := mem_encOne hb
      · exact isSent_maximalOctet _
      · exact isSent_remainderOctet _ h0 (remainder_lt _)
    · exact ih hb

/-- Settles O3: the closed form of the stream has maximal octets and remainder octets of 1 to 127 ticks only. -/
theorem encoderStreamHasTransmitClassesOnly : Obligations.EncoderStreamHasTransmitClassesOnly :=
  fun _ _ hb => isSent_of_mem_encFrom hb

/-! ### Words of the table, and the bit codes of the ports -/

/-- Settles O1: each of the nine words is decoded. -/
theorem wordsOfTheTableDecode : Obligations.WordsOfTheTableDecode := by
  refine ⟨?_, ?_, ?_, ?_, ?_, ?_, ?_, ?_, ?_⟩ <;> decide

theorem Pol.code_injective {q q' : Pol} (h : q.code = q'.code) : q = q' := by
  revert h
  cases q <;> cases q' <;> decide

/-- Settles O56: the codes, constructor by constructor. -/
theorem portCodes : Obligations.PortCodes := by
  refine ⟨fun q => ?_, fun q q' => Pol.code_injective, fun k n => ?_, ⟨rfl, rfl⟩, fun r => ?_⟩
  · cases q <;> decide
  · cases k <;> exact ⟨rfl, rfl, rfl⟩
  · obtain e | e | _ := r
    · simp [Result.errCode]
    · cases e <;> decide
    · decide

end Sys2Proof.Proofs.OctetClasses

/-! The decoder as the state machine of the source's design note (R20, R73): what a stream of octets amounts to, and
that the registers and the events of the block are that after every step. -/

namespace Sys2Proof.Proofs.DecoderStream

open Sys2Proof.Machine Sys2Proof.Safety

/-! ### The rows of `on_byte` in the table of R73 -/

theorem feed_empty (es : List Event) (b : Byte) :
    DecShape.feed (.empty, es) b = (.accumulating (polarityOf b) (durationOf b), es) := by
  simp [DecShape.feed, DecShape.onByte]

theorem feed_same {k : Polarity} {n : Nat} {b : Byte} (es : List Event) (h : polarityOf b = k) :
    DecShape.feed (.accumulating k n, es) b = (.accumulating k (n + durationOf b), es) := by
  simp [DecShape.feed, DecShape.onByte, h]

theorem feed_other {k : Polarity} {n : Nat} {b : Byte} (es : List Event) (h : polarityOf b ≠ k) :
    DecShape.feed (.accumulating k n, es) b =
      (.accumulating (polarityOf b) (durationOf b), es ++ [Event.ofRun k (qc k n (durationOf b))]) := by
  simp [DecShape.feed, DecShape.onByte, h]

theorem decodeStream_concat (bs : List Byte) (b : Byte) :
    decodeStream (bs ++ [b]) = DecShape.feed (decodeStream bs) b := by
  simp [decodeStream]

/-! ### The registers read as a shape, and the events among the results -/

theorem shapeOf_of_run {s : State} {k : Polarity} (h : s.pol.run = some k) :
    shapeOf s = .accumulating k s.acc := by
  simp [shapeOf, h]

theorem shapeOf_of_no_run {s : State} (h : s.pol.run = none) : shapeOf s = .empty := by
  simp [shapeOf, h]

@[simp] theorem run_ofPolarity (p : Polarity) : (Pol.ofPolarity p).run = some p := by
  cases p <;> rfl

@[simp] theorem runEventOf_ofRun (k : Polarity) (n : Nat) :
    runEventOf (.event (.ofRun k n)) = some (.ofRun k n) := by
  cases k <;> rfl

@[simp] theorem runEventOf_timeout : runEventOf (.event .timeout) = none := rfl
@[simp] theorem runEventOf_error (e : ChannelError) : runEventOf (.error e) = none := rfl
@[simp] theorem runEventOf_ok : runEventOf .ok = none := rfl

/-! ### Every step keeps the correspondence -/

/-- A step that consumes no octet, and that returns no Pulse or Space event, keeps `DecInv`. -/
theorem decInv_of_same_registers {s t : State} (h : DecInv s) (hpos : t.rxpos = s.rxpos)
    (hrx : t.rxTaken = s.rxTaken) (hpol : t.pol = s.pol) (hacc : t.acc = s.acc)
    (hev : runEvents t = runEvents s) : DecInv t := by
  have hshape : shapeOf t = shapeOf s := by simp [shapeOf, hpol, hacc]
  rw [DecInv, hpos, hrx, hshape, hev]
  exact h

/-- A step that consumes `b` keeps `DecInv` where it does what the row of R73 says of `b`. -/
theorem decInv_of_octet {s t : State} {b : Byte} (h : DecInv s) (hpos : t.rxpos = s.rxpos + 1)
    (hrx : t.rxTaken = s.rxTaken ++ [b])
    (hrow : DecShape.feed (shapeOf s, runEvents s) b = (shapeOf t, runEvents t)) : DecInv t := by
  obtain ⟨hcount, hstream⟩ := h
  refine ⟨by simp [hpos, hrx, hcount], ?_⟩
  rw [hrx, decodeStream_concat, hstream, hrow]

theorem decInv_resetBlock (s : State) : DecInv s.resetBlock := ⟨rfl, rfl⟩

/-- `DecInv` is kept by every transition: an octet is a row of the table, the reset input starts afresh, and all else
leaves ACC, POL and the Pulse and Space events alone. -/
theorem decInv_of_stepKind {s t : State} (h : DecInv s) (hk : StepKind s t) : DecInv t := by
  cases hk
  case reset => exact decInv_resetBlock _
  case octetStarts dl b rest _ _ hr =>
    refine decInv_of_octet (b := b) h rfl rfl ?_
    rw [shapeOf_of_no_run hr, feed_empty, shapeOf_of_run (k := polarityOf b) (by simp [decStart])]
    rfl
  case octetCloses dl b rest k _ _ hr hne =>
    refine decInv_of_octet (b := b) h rfl rfl ?_
    rw [shapeOf_of_run hr, feed_other _ hne, shapeOf_of_run (k := polarityOf b) (by simp [decClose])]
    simp [decClose, runEvents]
  case octetExtends dl b rest _ _ hr _ =>
    refine decInv_of_octet (b := b) h rfl rfl ?_
    rw [shapeOf_of_run hr, feed_same _ rfl, shapeOf_of_run (k := polarityOf b) (by simpa using hr)]
    rfl
  all_goals exact decInv_of_same_registers h rfl rfl rfl rfl (by simp [runEvents])

/-- Settles O36, transition by transition. -/
theorem decoderIsTheAccumulatorStateMachine : Obligations.DecoderIsTheAccumulatorStateMachine :=
  fun _ _ h hs => decInv_of_stepKind h (step_kinds hs)

/-! ### The alternation law -/

theorem alternates_iff_isChain (l : List (Option Polarity)) :
    alternates l = true ↔ l.IsChain (· ≠ ·) := by
  induction l with
  | nil => simp [alternates]
  | cons a l ih =>
    cases l with
    | nil => simp [alternates]
    | cons b l => simp [alternates, ih]

@[simp] theorem eventPolarity_ofRun (k : Polarity) (n : Nat) : eventPolarity (.ofRun k n) = some k := by
  cases k <;> rfl

theorem run_of_shapeOf {s : State} {k : Polarity} {n : Nat} (h : shapeOf s = .accumulating k n) :
    s.pol.run = some k := by
  cases hr : s.pol.run with
  | none => simp [shapeOf_of_no_run hr] at h
  | some k' => rw [shapeOf_of_run hr] at h; cases h; rfl

/-- A run is in progress, and the runs so far, closed ones first, alternate from polarity `p` on. -/
def AlternatesFrom (p : Polarity) (x : DecShape × List Event) : Prop :=
  ∃ k n, x.1 = .accumulating k n ∧ (x.2.map eventPolarity ++ [some k]).IsChain (· ≠ ·) ∧
    (x.2.map eventPolarity ++ [some k]).head? = some (some p)

theorem alternatesFrom_feed {p : Polarity} {x : DecShape × List Event} (h : AlternatesFrom p x) (b : Byte) :
    AlternatesFrom p (DecShape.feed x b) := by
  obtain ⟨shape, es⟩ := x
  obtain ⟨k, n, hshape, hchain, hhead⟩ := h
  obtain rfl : shape = .accumulating k n := hshape
  by_cases hb : polarityOf b = k
  · rw [feed_same es hb]
    exact ⟨k, _, rfl, hchain, hhead⟩
  · rw [feed_other es hb]
    have hruns : (es ++ [Event.ofRun k (qc k n (durationOf b))]).map eventPolarity =
        es.map eventPolarity ++ [some k] := by simp
    refine ⟨polarityOf b, _, rfl, ?_, ?_⟩
    · rw [hruns]
      exact hchain.append (List.isChain_singleton _) (by simpa using fun h => hb h.symm)
    · rw [hruns, List.head?_append, hhead]
      rfl

/-- The runs of a stream alternate, from the polarity of its first octet on. -/
theorem alternatesFrom_decodeStream (b : Byte) (bs : List Byte) :
    AlternatesFrom (polarityOf b) (decodeStream (b :: bs)) := by
  refine List.foldlRecOn bs DecShape.feed ?_ fun _ hx _ _ => alternatesFrom_feed hx _
  rw [feed_empty]
  exact ⟨_, _, rfl, List.isChain_singleton _, rfl⟩

theorem runEvents_of_no_octets {s : State} (h : DecInv s) (hrx : s.rxTaken = []) : runEvents s = [] := by
  have hstream := h.2
  rw [hrx] at hstream
  exact (congrArg Prod.snd hstream).symm

/-- Settles O41: the events are those of the octets consumed, whose runs alternate. -/
theorem eventsAlternate : Obligations.EventsAlternate := by
  intro s h
  cases hrx : s.rxTaken with
  | nil => simp [runEvents_of_no_octets h hrx, alternates]
  | cons b bs =>
    have halt := alternatesFrom_decodeStream b bs
    rw [← hrx, h.2] at halt
    obtain ⟨k, n, hshape, hchain, hhead⟩ := halt
    obtain ⟨hevents, -, hlast⟩ := List.isChain_append.mp hchain
    refine ⟨(alternates_iff_isChain _).mpr hevents, fun e b' he hb' => ?_, fun e he => ?_⟩
    · cases hb'
      simpa [List.head?_append, he] using hhead
    · rw [run_of_shapeOf hshape]
      exact hlast _ (by simp [he]) _ rfl

/-! ### The durations reported -/

/-- What a closed run can be reported as. -/
def TicksOrOne (n : Nat) : Prop := n = 1 ∨ 0 < n ∧ n % 16 = 0

/-- R101, R103: the override is a multiple of 16, so QC leaves a whole number of ticks or 1. -/
theorem ticksOrOne_qc {a : Nat} (k : Polarity) (d : Nat) (h : a % 16 = 0) : TicksOrOne (qc k a d) := by
  rw [TicksOrOne, (QuirkCorrector.quirkCorrectorFunction k a d).1]
  split <;> [skip; split] <;> omega

@[simp] theorem durationPort_ofRun (k : Polarity) (n : Nat) : (Event.ofRun k n).durationPort = n := by
  cases k <;> rfl

/-- The run in progress is a whole number of ticks, and the closed ones are reported as such or as 1. -/
def InTicks (x : DecShape × List Event) : Prop :=
  (∀ k n, x.1 = .accumulating k n → n % 16 = 0) ∧ ∀ e ∈ x.2, TicksOrOne e.durationPort

theorem inTicks_feed {x : DecShape × List Event} (h : InTicks x) (b : Byte) : InTicks (DecShape.feed x b) := by
  obtain ⟨shape, es⟩ := x
  obtain ⟨hrun, hevents⟩ := h
  have hd := durationOf_dvd b
  cases shape with
  | empty =>
    rw [feed_empty]
    exact ⟨fun _ _ h => by cases h; exact hd, hevents⟩
  | accumulating k n =>
    have hn : n % 16 = 0 := hrun k n rfl
    by_cases hb : polarityOf b = k
    · rw [feed_same es hb]
      exact ⟨fun _ _ h => by cases h; omega, hevents⟩
    · rw [feed_other es hb]
      refine ⟨fun _ _ h => by cases h; exact hd, fun e he => ?_⟩
      obtain he | he := List.mem_append.mp he
      · exact hevents e he
      · obtain rfl := List.mem_singleton.mp he
        rw [durationPort_ofRun]
        exact ticksOrOne_qc k _ hn

theorem inTicks_decodeStream (bs : List Byte) : InTicks (decodeStream bs) :=
  List.foldlRecOn bs DecShape.feed ⟨fun _ _ h => (nomatch h), fun _ h => (nomatch h)⟩
    fun _ hx _ _ => inTicks_feed hx _

/-- Settles O42: the events are those of the octets consumed, whose runs are whole numbers of ticks. -/
theorem reportedDurationsAreTicksOrOne : Obligations.ReportedDurationsAreTicksOrOne := by
  intro s h e he
  obtain ⟨-, hevents⟩ := inTicks_decodeStream s.rxTaken
  rw [h.2] at hevents
  exact hevents e he

end Sys2Proof.Proofs.DecoderStream

/-! The steps of an `encode` call (R112, R115 to R117): one equation of the step per phase and answer, and what the
loop over a duration does to the working values. -/

namespace Sys2Proof.Proofs.EncoderSteps

open Sys2Proof.Machine Sys2Proof.Safety Sys2Proof.Proofs.DecoderAnswers

/-! ### The working values -/

/-- R112: where a duration goes on after its split and after each batch, field by field. -/
theorem proceed_eq (e : EncCall) :
    e.proceed = { e with
      i := if e.f = 0 ∧ e.rm = 0 then e.i + 1 else e.i
      phase := if 0 < e.f then .maxBatch else if 0 < e.rm then .rem else .seq } := by
  obtain ⟨hf, h⟩ | ⟨hf, hr, h⟩ | ⟨hf, hr, h⟩ := proceed_cases e
  · simp [h, hf, Nat.ne_of_gt hf]
  · simp [h, hf, hr, Nat.ne_of_gt hr]
  · simp [h, hf, hr, EncCall.nextIndex]

/-- R113, R114: a duration of `T` ticks starts with a batch, with its remainder octet, or sends nothing. -/
theorem load_eq (e : EncCall) (d : Nat) :
    e.load d = { e with
      i := if ticks d = 0 then e.i + 1 else e.i
      p := polarityOfIndex e.i
      t := ticks d
      f := ticks d / 128
      rm := ticks d % 128
      phase := if 128 ≤ ticks d then .maxBatch else if 1 ≤ ticks d then .rem else .seq } := by
  have hnone : (ticks d / 128 = 0 ∧ ticks d % 128 = 0) ↔ ticks d = 0 := by omega
  have hmax : 0 < ticks d / 128 ↔ 128 ≤ ticks d := by omega
  rw [EncCall.load, proceed_eq]
  simp only [fullUnits_eq, remainder_eq, hnone, hmax, EncCall.mk.injEq, true_and]
  by_cases h : 128 ≤ ticks d
  · rw [if_pos h, if_pos h]
  · rw [if_neg h, if_neg h]
    exact if_congr (by omega) rfl rfl

@[simp] theorem proceed_durations (e : EncCall) : e.proceed.durations = e.durations := by
  rw [proceed_eq]

@[simp] theorem load_durations (e : EncCall) (d : Nat) : (e.load d).durations = e.durations := by
  rw [load_eq]

@[simp] theorem nextIndex_durations (e : EncCall) : e.nextIndex.durations = e.durations := rfl
@[simp] theorem stageMaximal_durations (e : EncCall) : e.stageMaximal.durations = e.durations := rfl
@[simp] theorem stageRemainder_durations (e : EncCall) : e.stageRemainder.durations = e.durations := rfl

@[simp] theorem afterWrite_durations (e : EncCall) (k : SendKind) : (e.afterWrite k).durations = e.durations := by
  cases k <;> simp [EncCall.afterWrite]

theorem accepted_all {e : EncCall} {n : Nat} (k : SendKind) (h : e.bs.length ≤ n) :
    e.accepted k n = { e with bs := [] }.afterWrite k :=
  if_pos h

theorem accepted_some {e : EncCall} {n : Nat} (k : SendKind) (h : n < e.bs.length) :
    e.accepted k n = { e with bs := e.bs.drop n, phase := .write k } :=
  if_neg (Nat.not_le.mpr h)

@[simp] theorem accepted_durations (e : EncCall) (k : SendKind) (n : Nat) :
    (e.accepted k n).durations = e.durations := by
  obtain h | h := Nat.lt_or_ge n e.bs.length
  · rw [accepted_some k h]
  · rw [accepted_all k h, afterWrite_durations]

theorem withPhase_self {e : EncCall} {ph : EncPhase} (h : e.phase = ph) : { e with phase := ph } = e := by
  subst h
  rfl

/-! ### What the primitives give for each answer -/

@[simp] theorem andThen_stuck {α : Type} (k : α → State → Out) : (Asked.stuck : Asked α).andThen k = .fault .stuck :=
  rfl

theorem waitReady_stuck {m : Bool} {s : State} (ha : s.answers = []) : waitReady m s = .stuck := by
  simp [waitReady, ha]

theorem txWrite_stuck {bs : List Byte} {s : State} (ha : s.answers = []) : txWrite bs s = .stuck := by
  simp [txWrite, ha]

theorem txWrite_written {bs : List Byte} {s : State} {n : Nat} {rest : List Answer}
    (ha : s.answers = .write (.written n) :: rest) (h1 : 1 ≤ n) (h2 : n ≤ bs.length) :
    txWrite bs s = .answered (.written n) ((s.withAnswers rest).sendOctets (bs.take n)) := by
  simp [txWrite, ha, Nat.ne_of_gt h1, h2]

theorem txWrite_written_tooMany {bs : List Byte} {s : State} {n : Nat} {rest : List Answer}
    (ha : s.answers = .write (.written n) :: rest) (h : bs.length < n) : txWrite bs s = .inadmissible := by
  simp [txWrite, ha, Nat.not_le.mpr h, Nat.ne_of_gt (Nat.zero_lt_of_lt h)]

/-! ### The head of the loop (R112) -/

section Seq

variable {s : State} {e : EncCall} (hc : s.call = .encode e) (hp : e.phase = .seq)
include hc hp

theorem step_seq_load {d : Nat} (hd : e.durations[e.i]? = some d) :
    step s = .next (s.withCall (.encode (e.load d))) := by
  simp [step, fetch, fetchEncoder, hc, hp, encSeq, hd]

theorem step_seq_ok (hd : e.durations[e.i]? = none) : step s = .next (s.finish .ok) := by
  simp [step, fetch, fetchEncoder, hc, hp, encSeq, hd]

end Seq

/-! ### `write_all` (R117) -/

section Write

variable {s : State} {e : EncCall} {k : SendKind} {rest : List Answer}
variable (hc : s.call = .encode e) (hp : e.phase = .write k) (hb : e.bs ≠ [])
include hc hp hb

theorem step_write_written {n : Nat} (ha : s.answers = .write (.written n) :: rest) (h1 : 1 ≤ n)
    (h2 : n ≤ e.bs.length) :
    step s = .next (((s.withAnswers rest).sendOctets (e.bs.take n)).withCall (.encode (e.accepted k n))) := by
  simp [step, fetch, fetchEncoder, hc, hp, encWrite, hb, txWrite_written ha h1 h2]

/-- The last octets offered have been accepted: `write_all` returns (R112). -/
theorem step_write_all (ha : s.answers = .write (.written e.bs.length) :: rest) :
    step s = .next (((s.withAnswers rest).sendOctets e.bs).withCall
      (.encode ({ e with bs := [] }.afterWrite k))) := by
  rw [step_write_written hc hp hb ha (List.length_pos_iff.mpr hb) (Nat.le_refl _), List.take_length,
    accepted_all k (Nat.le_refl _)]

/-- D9: `WouldBlock`, and a `Written` of no octet, wait for writability. -/
theorem step_write_blocks (ha : s.answers = .write .wouldBlock :: rest ∨ s.answers = .write (.written 0) :: rest) :
    step s = .next ((s.withAnswers rest).withCall (.encode { e with phase := .waitWritable k })) := by
  obtain ha | ha := ha <;> simp [step, fetch, fetchEncoder, hc, hp, encWrite, hb, txWrite, ha]

/-- An interrupted write is tried again, and leaves the call as it stands. -/
theorem step_write_interrupted (ha : s.answers = .write .interrupted :: rest) :
    step s = .next (s.withAnswers rest) := by
  have hcall : (s.withAnswers rest).withCall (.encode e) = s.withAnswers rest := withCall_self hc
  simp [step, fetch, fetchEncoder, hc, hp, encWrite, hb, txWrite, ha, withPhase_self hp, hcall]

theorem step_write_error (ha : s.answers = .write .error :: rest) :
    step s = .next ((s.withAnswers rest).raise .channelWriteError) := by
  simp [step, fetch, fetchEncoder, hc, hp, encWrite, hb, txWrite, ha]

theorem step_write_stuck (ha : s.answers = []) : step s = .fault .stuck := by
  simp [step, fetch, fetchEncoder, hc, hp, encWrite, hb, txWrite_stuck ha]

theorem step_write_inadmissible (hw : txWrite e.bs s = .inadmissible) :
    step s = .refused .inadmissibleAnswer := by
  simp [step, fetch, fetchEncoder, hc, hp, encWrite, hb, hw]

end Write

/-! ### `wait_writable` (R117) -/

section WaitWritable

variable {s : State} {e : EncCall} {k : SendKind} {rest : List Answer}
variable (hc : s.call = .encode e) (hp : e.phase = .waitWritable k)
include hc hp

theorem step_waitWritable : step s = encWaitWritable k e s := by
  simp [step, fetch, fetchEncoder, hc, hp]

theorem step_waitWritable_ready (ha : s.answers = .wait .ready :: rest) :
    step s = .next ((s.withAnswers rest).withCall (.encode { e with phase := .write k })) := by
  simp [step_waitWritable hc hp, encWaitWritable, waitReady_of_answer ha]

theorem step_waitWritable_interrupted (ha : s.answers = .wait .interrupted :: rest) :
    step s = .next (s.withAnswers rest) := by
  have hcall : (s.withAnswers rest).withCall (.encode e) = s.withAnswers rest := withCall_self hc
  simp [step_waitWritable hc hp, encWaitWritable, waitReady_of_answer ha, withPhase_self hp, hcall]

theorem step_waitWritable_error (ha : s.answers = .wait .error :: rest) :
    step s = .next ((s.withAnswers rest).raise .channelWriteError) := by
  simp [step_waitWritable hc hp, encWaitWritable, waitReady_of_answer ha]

theorem step_waitWritable_stuck (ha : s.answers = []) : step s = .fault .stuck := by
  simp [step_waitWritable hc hp, encWaitWritable, waitReady_stuck ha]

theorem step_waitWritable_inadmissible (hw : waitReady false s = .inadmissible) :
    step s = .refused .inadmissibleAnswer := by
  simp [step_waitWritable hc hp, encWaitWritable, hw]

end WaitWritable

/-! ### The obligations -/

/-- Settles O29, by the working values that loading a duration leaves. -/
theorem encoderLoadsDuration : Obligations.EncoderLoadsDuration := by
  intro s e d hc hp hd
  rw [step_seq_load hc hp hd, load_eq]
  rfl

/-- Settles O30: beyond the last index there is no duration to load. -/
theorem encoderReturnsOkAfterLastDuration : Obligations.EncoderReturnsOkAfterLastDuration :=
  fun _ _ hc hp hi => step_seq_ok hc hp (List.getElem?_eq_none hi)

/-- Settles O28: a `Written` of no octet blocks. -/
theorem writtenZeroIsWouldBlock : Obligations.WrittenZeroIsWouldBlock :=
  fun _ _ _ _ hc hp hb ha => step_write_blocks hc hp hb (.inr ha)

/-- The batch just accepted is taken off F, and the tests of R112 follow. -/
theorem afterWrite_maximal_eq (e : EncCall) :
    e.afterWrite .maximal = { e with
      f := e.f - e.n
      i := if e.f ≤ e.n ∧ e.rm = 0 then e.i + 1 else e.i
      phase := if e.n < e.f then .maxBatch else if 0 < e.rm then .rem else .seq } := by
  rw [EncCall.afterWrite, proceed_eq]
  simp [EncCall.batchSent, Nat.sub_eq_zero_iff_le]
  rfl

/-- Settles O27, by the equations of `write_all` and `wait_writable`, one per answer. -/
theorem writeAnswers : Obligations.WriteAnswers := by
  intro s e k rest hc
  refine ⟨fun hp hb => ⟨fun n h1 h2 ha => ?_, fun ha hk => ?_, fun ha hk => ?_, fun ha => ?_, ?_, ?_⟩,
    fun hp => ⟨step_waitWritable_ready hc hp, step_waitWritable_interrupted hc hp, step_waitWritable_error hc hp⟩⟩
  · have hlen : (e.bs.take n).length = n := List.length_take_of_le h2.le
    rw [step_write_written hc hp hb ha h1 h2.le, accepted_some k h2, ← hp, State.sendOctets, hlen]
    rfl
  · subst hk
    rw [step_write_all hc hp hb ha, afterWrite_maximal_eq]
    rfl
  · subst hk
    rw [step_write_all hc hp hb ha]
    rfl
  · exact step_write_blocks hc hp hb (.inl ha)
  · exact step_write_interrupted hc hp hb
  · exact step_write_error hc hp hb

end Sys2Proof.Proofs.EncoderSteps

/-! The stream of an `encode` call (R120): what has been accepted and what is pending, step by step, and from it what a
call that ends has sent. -/

namespace Sys2Proof.Proofs.EncoderStream

open Sys2Proof.Machine Sys2Proof.Safety Sys2Proof.Proofs.EncoderSteps

/-! ### The octets pending -/

/-- What a duration of F maximal octets and a remainder has still to send is what R112 goes on with. -/
theorem pendingOctets_proceed (e : EncCall) : pendingOctets e.proceed = restOfDuration e ++ laterOctets e := by
  obtain ⟨-, h⟩ | ⟨hf, -, h⟩ | ⟨hf, hr, h⟩ := proceed_cases e <;> rw [h]
  · rfl
  · simp [pendingOctets, restOfDuration, laterOctets, hf]
  · simp [pendingOctets, restOfDuration, laterOctets, remainderPart, EncCall.nextIndex, hf, hr]

/-- R120: the octets from index `i` on are those of the duration loaded at `i`, then those of the later indices. -/
theorem pendingOctets_load {e : EncCall} {d : Nat} (hp : e.phase = .seq) (hd : e.durations[e.i]? = some d) :
    pendingOctets (e.load d) = pendingOctets e := by
  obtain ⟨hi, rfl⟩ := List.getElem?_eq_some_iff.mp hd
  rw [EncCall.load, pendingOctets_proceed]
  simp only [pendingOctets, hp]
  rw [List.drop_eq_getElem_cons hi]
  rfl

theorem pendingOctets_stageMaximal {e : EncCall} (hp : e.phase = .maxBatch) :
    pendingOctets e.stageMaximal = pendingOctets e := by
  have hf : min e.f 16 + (e.f - min e.f 16) = e.f := Nat.add_sub_cancel' (Nat.min_le_left _ _)
  simp only [pendingOctets, hp, EncCall.stageMaximal, restAfterWrite, restOfDuration, batchSent_f, batchSent_p,
    batchSent_rm, K_batch]
  rw [← List.append_assoc, ← List.replicate_add, hf]
  rfl

theorem pendingOctets_stageRemainder {e : EncCall} (hp : e.phase = .rem) (hr : 0 < e.rm) :
    pendingOctets e.stageRemainder = pendingOctets e := by
  simp [pendingOctets, hp, EncCall.stageRemainder, restAfterWrite, remainderPart, hr, laterOctets]

/-- After `write_all` the rest of the duration follows, and the later indices. -/
theorem pendingOctets_afterWrite (e : EncCall) (k : SendKind) :
    pendingOctets (e.afterWrite k) = restAfterWrite e k ++ laterOctets e := by
  cases k with
  | maximal => exact pendingOctets_proceed e.batchSent
  | remainder => rfl

/-- While a `write_all` is under way the octets on offer come first. -/
theorem pendingOctets_of_offering {e : EncCall} {k : SendKind}
    (hp : e.phase = .write k ∨ e.phase = .waitWritable k) :
    pendingOctets e = e.bs ++ (restAfterWrite e k ++ laterOctets e) := by
  obtain hp | hp := hp <;> simp [pendingOctets, hp]

theorem restAfterWrite_with_bs (e : EncCall) (bs : List Byte) (ph : EncPhase) (k : SendKind) :
    restAfterWrite { e with bs := bs, phase := ph } k = restAfterWrite e k := by
  cases k <;> rfl

/-- The octets accepted are the first of those pending. -/
theorem pendingOctets_accepted {e : EncCall} {k : SendKind} {n : Nat} (hp : e.phase = .write k) :
    e.bs.take n ++ pendingOctets (e.accepted k n) = pendingOctets e := by
  rw [pendingOctets_of_offering (.inl hp)]
  obtain h | h := Nat.lt_or_ge n e.bs.length
  · rw [accepted_some k h, pendingOctets_of_offering (.inl rfl), restAfterWrite_with_bs, ← List.append_assoc,
      List.take_append_drop]
    rfl
  · rw [accepted_all k h, pendingOctets_afterWrite, List.take_of_length_le h]
    rw [restAfterWrite_with_bs e [] e.phase k]
    rfl

/-! ### Where a call stands -/

theorem loaded_load {e : EncCall} {d : Nat} (hd : e.durations[e.i]? = some d) :
    Loaded { e with
      p := polarityOfIndex e.i, t := ticks d, f := fullUnits (ticks d), rm := remainder (ticks d) } :=
  ⟨d, hd, rfl, rfl, rfl, Nat.le_refl _⟩

theorem loaded_batchSent {e : EncCall} (h : Loaded e) : Loaded e.batchSent := by
  obtain ⟨d, hd, hp, ht, hr, hf⟩ := h
  exact ⟨d, hd, hp, ht, hr, (Nat.sub_le _ _).trans hf⟩

theorem loaded_rm_lt {e : EncCall} (h : Loaded e) : e.rm < 128 := by
  obtain ⟨d, -, -, -, hrm, -⟩ := h
  exact hrm ▸ remainder_lt _

theorem phaseInv_proceed {e : EncCall} (h : Loaded e) : PhaseInv e.proceed := by
  obtain ⟨hf, hq⟩ | ⟨hf, hr, hq⟩ | ⟨-, -, hq⟩ := proceed_cases e <;> rw [hq]
  · exact ⟨h, hf⟩
  · exact ⟨h, hf, hr⟩
  · trivial

theorem phaseInv_stageMaximal {e : EncCall} (hp : e.phase = .maxBatch) (h : PhaseInv e) : PhaseInv e.stageMaximal := by
  simp only [PhaseInv, hp] at h
  obtain ⟨hl, hf⟩ := h
  refine ⟨hl, ?_, ?_, rfl, fun b hb => List.eq_of_mem_replicate hb, fun hk => (nomatch hk)⟩
  · simp [EncCall.stageMaximal, Nat.ne_of_gt hf]
  · simp [EncCall.stageMaximal]

theorem phaseInv_stageRemainder {e : EncCall} (hp : e.phase = .rem) (h : PhaseInv e) : PhaseInv e.stageRemainder := by
  simp only [PhaseInv, hp] at h
  obtain ⟨hl, hf, hr⟩ := h
  exact ⟨hl, List.cons_ne_nil _ _, Nat.le_refl 1, rfl, fun b hb => List.mem_singleton.mp hb, fun _ => ⟨hf, hr⟩⟩

theorem offering_of_phaseInv {e : EncCall} {k : SendKind} (hp : e.phase = .write k ∨ e.phase = .waitWritable k)
    (h : PhaseInv e) : Offering e k := by
  obtain hp | hp := hp <;> simpa only [PhaseInv, hp] using h

theorem phaseInv_afterWrite {e : EncCall} {k : SendKind} (h : Loaded e) : PhaseInv (e.afterWrite k) := by
  cases k with
  | maximal => exact phaseInv_proceed (loaded_batchSent h)
  | remainder => trivial

theorem phaseInv_accepted {e : EncCall} {k : SendKind} {n : Nat} (h : Offering e k) : PhaseInv (e.accepted k n) := by
  obtain ⟨hl, -, hn, hk, hall, hr⟩ := h
  obtain hlt | hge := Nat.lt_or_ge n e.bs.length
  · rw [accepted_some k hlt]
    refine ⟨hl, ?_, ?_, hk, fun b hb => hall b (List.mem_of_mem_drop hb), hr⟩
    · simpa using hlt
    · exact (by rw [List.length_drop]; exact Nat.sub_le _ _ : (e.bs.drop n).length ≤ e.bs.length).trans hn
  · rw [accepted_all k hge]
    exact phaseInv_afterWrite hl

/-! ### Every step of the call keeps the stream -/

/-- The call goes on as `e'` once the octets `x` have been accepted, nothing of its stream lost or added. -/
def Continues (e : EncCall) (x : List Byte) (e' : EncCall) : Prop :=
  x ++ pendingOctets e' = pendingOctets e ∧ PhaseInv e' ∧ e'.durations = e.durations

theorem continues_load {e : EncCall} {d : Nat} (hp : e.phase = .seq) (hd : e.durations[e.i]? = some d) :
    Continues e [] (e.load d) :=
  ⟨pendingOctets_load hp hd, phaseInv_proceed (loaded_load hd), load_durations e d⟩

theorem continues_stageMaximal {e : EncCall} (hp : e.phase = .maxBatch) (h : PhaseInv e) :
    Continues e [] e.stageMaximal :=
  ⟨pendingOctets_stageMaximal hp, phaseInv_stageMaximal hp h, rfl⟩

theorem continues_stageRemainder {e : EncCall} (hp : e.phase = .rem) (hr : 0 < e.rm) (h : PhaseInv e) :
    Continues e [] e.stageRemainder :=
  ⟨pendingOctets_stageRemainder hp hr, phaseInv_stageRemainder hp h, rfl⟩

theorem continues_accepted {e : EncCall} {k : SendKind} (n : Nat) (hp : e.phase = .write k) (h : PhaseInv e) :
    Continues e (e.bs.take n) (e.accepted k n) :=
  ⟨pendingOctets_accepted hp, phaseInv_accepted (offering_of_phaseInv (.inl hp) h), accepted_durations e k n⟩

/-- Going to and from `wait_writable` offers the same octets. -/
theorem continues_withPhase {e : EncCall} {k : SendKind} {ph : EncPhase}
    (hp : e.phase = .write k ∨ e.phase = .waitWritable k) (hq : ph = .write k ∨ ph = .waitWritable k)
    (h : PhaseInv e) : Continues e [] { e with phase := ph } := by
  have ho := offering_of_phaseInv hp h
  refine ⟨?_, ?_, rfl⟩
  · rw [pendingOctets_of_offering hp, pendingOctets_of_offering hq, restAfterWrite_with_bs e e.bs ph k]
    rfl
  · obtain rfl | rfl := hq <;> exact ho

theorem encode_inj {s : State} {e e' : EncCall} (h : s.call = .encode e) (h' : s.call = .encode e') : e = e' :=
  Call.encode.inj (h.symm.trans h')

/-- A step of an `encode` call ends the call, sending nothing, or goes on with the stream. -/
theorem stepKind_continues {s t : State} {e : EncCall} (hk : StepKind s t) (hc : s.call = .encode e)
    (h : PhaseInv e) :
    (t.call = .idle ∧ t.tx = s.tx ∧ t.txpos = s.txpos) ∨
    ∃ x e', t.call = .encode e' ∧ t.tx = s.tx ++ x ∧ t.txpos = s.txpos + x.length ∧ Continues e x e' := by
  cases hk
  case loads e' d hc' hp hd =>
    obtain rfl := encode_inj hc hc'
    exact .inr ⟨[], _, rfl, by simp, rfl, continues_load hp hd⟩
  case stagesMaximal e' hc' hp _ =>
    obtain rfl := encode_inj hc hc'
    exact .inr ⟨[], _, rfl, by simp, rfl, continues_stageMaximal hp h⟩
  case stagesRemainder e' hc' hp hr _ =>
    obtain rfl := encode_inj hc hc'
    exact .inr ⟨[], _, rfl, by simp, rfl, continues_stageRemainder hp hr h⟩
  case nothingOffered e' k hc' hp hb =>
    obtain rfl := encode_inj hc hc'
    obtain ⟨-, hne, -⟩ := offering_of_phaseInv (.inl hp) h
    exact absurd hb hne
  case written e' k n rest hc' hp _ _ _ _ =>
    obtain rfl := encode_inj hc hc'
    exact .inr ⟨_, _, rfl, rfl, rfl, continues_accepted n hp h⟩
  case writeBlocks e' k rest hc' hp _ _ =>
    obtain rfl := encode_inj hc hc'
    exact .inr ⟨[], _, rfl, by simp, rfl, continues_withPhase (.inl hp) (.inr rfl) h⟩
  case writeInterrupted e' k rest hc' hp _ _ =>
    obtain rfl := encode_inj hc hc'
    exact .inr ⟨[], _, rfl, by simp, rfl, continues_withPhase (.inl hp) (.inl rfl) h⟩
  case writable e' k rest hc' hp _ =>
    obtain rfl := encode_inj hc hc'
    exact .inr ⟨[], _, rfl, by simp, rfl, continues_withPhase (.inr hp) (.inl rfl) h⟩
  case writableInterrupted e' k rest hc' hp _ =>
    obtain rfl := encode_inj hc hc'
    exact .inr ⟨[], _, rfl, by simp, rfl, continues_withPhase (.inr hp) (.inr rfl) h⟩
  case returnsOk | writeFails | writableFails => exact .inl ⟨rfl, rfl, rfl⟩
  -- What is left are transitions of other calls.
  all_goals simp_all

/-! ### The invariant -/

theorem encInv_encode {s : State} {e : EncCall} (hc : s.call = .encode e) :
    EncInv s ↔ s.txpos ≤ s.tx.length ∧ sentInCall s ++ pendingOctets e = encStream e.durations ∧ PhaseInv e := by
  simp [EncInv, hc]

/-- Outside an `encode` call the invariant says nothing. -/
theorem encInv_of_not_encode {s : State} (h : ∀ e, s.call ≠ .encode e) : EncInv s := by
  cases hc : s.call with
  | idle => simp [EncInv, hc]
  | decode => simp [EncInv, hc]
  | encode e => exact absurd hc (h e)

/-- R17: TXPOS grows with TX, so the octets sent in the call grow by those accepted. -/
theorem sentInCall_append {s t : State} {x : List Byte} (htx : t.tx = s.tx ++ x)
    (hpos : t.txpos = s.txpos + x.length) :
    sentInCall t = sentInCall s ++ x := by
  have hlen : (s.tx ++ x).length - (s.txpos + x.length) = s.tx.length - s.txpos := by
    rw [List.length_append, Nat.add_sub_add_right]
  rw [sentInCall, htx, hpos, hlen, List.drop_append_of_le_length (Nat.sub_le _ _), sentInCall]

/-- R120 at the start of a call: nothing has been accepted, and the whole stream is pending. -/
theorem encInv_start {t : State} {ds : List Nat} (hc : t.call = .encode (.start ds)) (hpos : t.txpos = 0) :
    EncInv t := by
  refine (encInv_encode hc).mpr ⟨by omega, ?_, trivial⟩
  simp [sentInCall, hpos, pendingOctets, EncCall.start, encStream]

theorem encInv_of_encode_step {s t : State} {e : EncCall} (h : EncInv s) (hc : s.call = .encode e)
    (hk : StepKind s t) : EncInv t := by
  obtain ⟨hle, hstream, hphase⟩ := (encInv_encode hc).mp h
  obtain ⟨hidle, -, -⟩ | ⟨x, e', hc', htx, hpos, hpending, hphase', hds⟩ := stepKind_continues hk hc hphase
  · exact encInv_of_not_encode (by simp [hidle])
  · refine (encInv_encode hc').mpr ⟨?_, ?_, hphase'⟩
    · rw [htx, hpos, List.length_append]
      exact Nat.add_le_add_right hle _
    · rw [sentInCall_append htx hpos, List.append_assoc, hpending, hstream, hds]

/-- Outside an `encode` call only the host's request begins one. -/
theorem encInv_of_other_step {s t : State} (hc : ∀ e, s.call ≠ .encode e) (hk : StepKind s t) : EncInv t := by
  cases hk
  case startEncode ds rest _ _ _ => exact encInv_start rfl rfl
  all_goals exact encInv_of_not_encode (by simp_all [decStart, decClose])

/-- Settles O37: a step of the call moves octets from the pending to the accepted, and a call begins with all of its
stream pending. -/
theorem encoderStreamIsKept : Obligations.EncoderStreamIsKept := by
  intro s t h hs
  by_cases hc : ∃ e, s.call = .encode e
  · obtain ⟨e, hc⟩ := hc
    exact encInv_of_encode_step h hc (step_kinds hs)
  · exact encInv_of_other_step (not_exists.mp hc) (step_kinds hs)

/-! ### What a call that ends has sent -/

/-- After the last duration nothing is pending. -/
theorem pendingOctets_of_no_duration {e : EncCall} (hp : e.phase = .seq) (hd : e.durations[e.i]? = none) :
    pendingOctets e = [] := by
  simp [pendingOctets, hp, List.drop_eq_nil_of_le (List.getElem?_eq_none_iff.mp hd), encFrom]

/-- Settles O38: ok is returned after the last duration, where nothing is pending. -/
theorem okMeansFullyTransmitted : Obligations.OkMeansFullyTransmitted := by
  intro s t e h hc hs hr
  obtain ⟨-, hstream, -⟩ := (encInv_encode hc).mp h
  cases step_kinds hs
  case returnsOk e' hc' hp hd =>
    obtain rfl := encode_inj hc hc'
    rwa [pendingOctets_of_no_duration hp hd, List.append_nil] at hstream
  all_goals simp [decStart, decClose] at hr

/-- Octets on offer are pending, so those accepted fall strictly short of the stream. -/
theorem strictPrefix_of_offering {s : State} {e : EncCall} {k : SendKind} (h : EncInv s)
    (hc : s.call = .encode e) (hp : e.phase = .write k ∨ e.phase = .waitWritable k) :
    StrictPrefix (sentInCall s) (encStream e.durations) := by
  obtain ⟨-, hstream, hphase⟩ := (encInv_encode hc).mp h
  obtain ⟨-, hne, -⟩ := offering_of_phaseInv hp hphase
  obtain ⟨b, bs, hbs⟩ := List.exists_cons_of_ne_nil hne
  refine ⟨b, bs ++ (restAfterWrite e k ++ laterOctets e), ?_⟩
  rw [← hstream, pendingOctets_of_offering hp, hbs]
  rfl

/-- Settles O39: ChannelWriteError comes from a write or its wait, with octets still on offer. -/
theorem writeErrorLeavesStrictPrefix : Obligations.WriteErrorLeavesStrictPrefix := by
  intro s t e h hc hs hr
  cases step_kinds hs
  case writeFails e' k rest hc' hp _ _ =>
    obtain rfl := encode_inj hc hc'
    have hstrict := strictPrefix_of_offering h hc (.inl hp)
    exact ⟨rfl, rfl, hstrict⟩
  case writableFails e' k rest hc' hp _ =>
    obtain rfl := encode_inj hc hc'
    have hstrict := strictPrefix_of_offering h hc (.inr hp)
    exact ⟨rfl, rfl, hstrict⟩
  all_goals simp [decStart, decClose] at hr

/-! ### No class out of turn -/

/-- Going on from an answer is refused out of turn only where the going on is. -/
theorem andThen_ne_octetOutOfTurn {α : Type} {x : Asked α} {k : α → State → Out}
    (h : ∀ a s, k a s ≠ .refused .octetOutOfTurn) : x.andThen k ≠ .refused .octetOutOfTurn := by
  cases x with
  | answered a s => exact h a s
  | stuck => exact fun h => (nomatch h)
  | inadmissible => exact fun h => (nomatch h)

/-- R79: an octet read by a `decode_next` call is never refused. -/
theorem decOperands_ne_refused (p : Polarity) (d : Nat) (s : State) (r : Refusal) :
    decOperands p d s ≠ .refused r := by
  unfold decOperands decExtend
  split
  · simp
  · split
    · simp
    · split <;> simp

theorem startCall_ne_octetOutOfTurn (s : State) : startCall s ≠ .refused .octetOutOfTurn := by
  unfold startCall
  split
  · simp
  · simp
  · simp
  · split <;> simp

theorem step_read_ne_octetOutOfTurn {s : State} {dl : Nat} (hc : s.call = .decode dl .read) :
    step s ≠ .refused .octetOutOfTurn := by
  simp only [step, fetch, hc, fetchOctet]
  cases hr : rxTryRead s with
  | stuck => simp
  | inadmissible => simp
  | answered a s' =>
    obtain ⟨rest, -, ⟨b, rfl, rfl⟩ | ⟨rfl | rfl, -⟩⟩ := rxTryRead_answered hr
    · have hexec := exec_decodeOctet (b := b) (s := (s.withAnswers rest).takeOctet b) (dl := dl) (by simpa using hc)
      simpa only [hexec] using decOperands_ne_refused _ _ _ _
    · simp
    · simp

theorem decWait_ne_octetOutOfTurn (dl : Nat) (s : State) : decWait dl s ≠ .refused .octetOutOfTurn :=
  andThen_ne_octetOutOfTurn fun a s => by cases a <;> simp

theorem encWaitWritable_ne_octetOutOfTurn (k : SendKind) (e : EncCall) (s : State) :
    encWaitWritable k e s ≠ .refused .octetOutOfTurn :=
  andThen_ne_octetOutOfTurn fun a s => by cases a <;> simp

theorem encWrite_ne_octetOutOfTurn (k : SendKind) (e : EncCall) (s : State) :
    encWrite k e s ≠ .refused .octetOutOfTurn := by
  unfold encWrite
  split
  · simp
  · exact andThen_ne_octetOutOfTurn fun a s => by cases a <;> simp

theorem encSeq_ne_refused (e : EncCall) (s : State) (r : Refusal) : encSeq e s ≠ .refused r := by
  unfold encSeq
  split <;> simp

/-- Where the invariant lets a call form octets, F or Rm is what the class needs. -/
theorem step_encode_ne_octetOutOfTurn {s : State} {e : EncCall} (hc : s.call = .encode e) (h : PhaseInv e) :
    step s ≠ .refused .octetOutOfTurn := by
  cases hp : e.phase with
  | seq => simpa only [step, fetch, fetchEncoder, hc, hp] using encSeq_ne_refused e s _
  | maxBatch =>
    simp only [PhaseInv, hp] at h
    simp [step_maxBatch hc hp, h.2]
  | rem =>
    simp only [PhaseInv, hp] at h
    obtain ⟨hl, -, hpos⟩ := h
    simp [step_rem hc hp, hpos, loaded_rm_lt hl]
  | write k => simpa only [step, fetch, fetchEncoder, hc, hp] using encWrite_ne_octetOutOfTurn k e s
  | waitWritable k =>
    simpa only [step, fetch, fetchEncoder, hc, hp] using encWaitWritable_ne_octetOutOfTurn k e s

/-- Settles O40, by the phase the block stands in. -/
theorem issuedOctetsAreNeverOutOfTurn : Obligations.IssuedOctetsAreNeverOutOfTurn := by
  intro s h
  cases hc : s.call with
  | idle => simpa only [step, fetch, hc] using startCall_ne_octetOutOfTurn s
  | decode dl ph =>
    cases ph with
    | read => exact step_read_ne_octetOutOfTurn hc
    | wait => simpa only [step, fetch, hc] using decWait_ne_octetOutOfTurn dl s
  | encode e =>
    obtain ⟨-, -, hphase⟩ := (encInv_encode hc).mp h
    exact step_encode_ne_octetOutOfTurn hc hphase

end Sys2Proof.Proofs.EncoderStream

/-! A received octet where it is handled and where it is not: the finite accumulator, the quirk's silence, the frame of
a received class, and the refusal outside the READ phase. -/

namespace Sys2Proof.Proofs.ReceivedClasses

open Sys2Proof.Machine Sys2Proof.Safety Sys2Proof.Proofs.OctetDispatch Sys2Proof.Proofs.QuirkCorrector

/-! ### A finite accumulator (R12) -/

theorem accFits_iff_of_width {p : Params} {w : Nat} (h : p.accW = some w) (v : Nat) :
    accFits p v = true ↔ v < 2 ^ w := by
  simp [accFits, h]

theorem decExtend_of_not_fits {d : Nat} {s : State} (h : ¬ accFits s.params (s.acc + d) = true) :
    decExtend d s = .fault .accOverflow :=
  if_neg h

/-- Settles O7: an octet of the run's own polarity is EXTEND, and `accFits` compares with `2 ^ w`. -/
theorem finiteAccumulatorFaultsOnOverflow : Obligations.FiniteAccumulatorFaultsOnOverflow := by
  intro i s w hr hw hpol
  have hrun : s.pol.run = some i.polarity := by
    obtain ⟨hp, hi⟩ | ⟨hp, hi⟩ := hpol <;> rw [hp, hi] <;> rfl
  refine ⟨fun hover => ?_, fun hfit => exec_extends_run hr hrun ((accFits_iff_of_width hw _).mpr hfit)⟩
  obtain ⟨dl, hc⟩ := hr
  rw [exec_reading hc, decOperands_of_same hrun, decExtend_of_not_fits]
  rw [accFits_iff_of_width hw]
  exact Nat.not_lt.mpr hover

/-! ### Where the quirk is silent -/

theorem magnitude_toNat_ne_zero {m : Mag7} (h : m ≠ 0#7) : m.toNat ≠ 0 :=
  fun hz => h (BitVec.eq_of_toNat_eq hz)

/-- Settles O11: CLOSE reports `qc` of the run, and one of the quirk's three conditions fails. -/
theorem unquirkedSpaceKeepsItsLength : Obligations.UnquirkedSpaceKeepsItsLength := by
  intro i s hr hp hi hpos hsilent
  have hq : ¬ (Polarity.space = .space ∧ 16 * i.magnitude.toNat = 0 ∧ 10000 < s.acc) := by
    rintro ⟨-, hzero, hlong⟩
    obtain hm | hshort := hsilent
    · have := magnitude_toNat_ne_zero hm
      omega
    · omega
  rw [(octetOfOtherPolarityClosesRun i s hr).2 hp hi, qc_silent hq hpos]

/-! ### The classes in the READ phase -/

/-- Settles O13: in the READ phase a class acts by its polarity and magnitude alone. -/
theorem sentClassesAreOrdinaryWhenReceived : Obligations.SentClassesAreOrdinaryWhenReceived := by
  rintro s ⟨dl, hc⟩
  simp only [exec_reading hc]
  exact ⟨rfl, rfl, fun _ => ⟨rfl, rfl⟩⟩

/-- Settles O15, by the three arms of R79. -/
theorem receivedOctetFrame : Obligations.ReceivedOctetFrame := by
  rintro i s t ⟨dl, hc⟩ h
  rw [exec_reading hc] at h
  obtain ⟨-, rfl⟩ | ⟨k, -, -, rfl⟩ | ⟨-, -, rfl⟩ := decOperands_next h
  · exact ⟨rfl, rfl, rfl, rfl, rfl, rfl, rfl, .inl ⟨rfl, rfl⟩⟩
  · refine ⟨rfl, rfl, rfl, rfl, rfl, rfl, rfl, .inr ⟨rfl, qc k s.acc (16 * i.magnitude.toNat), ?_⟩⟩
    cases k with
    | pulse => exact .inl rfl
    | space => exact .inr rfl
  · exact ⟨rfl, rfl, rfl, rfl, rfl, rfl, rfl, .inl ⟨rfl, rfl⟩⟩

/-- Settles O14, by the call the block stands in. -/
theorem octetOutsideReadPhaseIsRefused : Obligations.OctetOutsideReadPhaseIsRefused := by
  intro i s hnot
  refine ⟨fun hne => ?_, fun e m hc hi => ?_⟩
  · cases hc : s.call with
    | idle => exact exec_idle hc
    | encode e => exact absurd hc (hne e)
    | decode dl ph =>
      cases ph with
      | read => exact absurd ⟨dl, hc⟩ hnot
      | wait => exact exec_waiting hc
  · obtain rfl | rfl | rfl := hi <;> rw [exec_encoding hc]

end Sys2Proof.Proofs.ReceivedClasses

/-! The transmit classes inside an `encode` call: what each forms, when it is refused, and what it leaves unchanged. -/

namespace Sys2Proof.Proofs.SentClasses

open Sys2Proof.Machine Sys2Proof.Safety Sys2Proof.Proofs.OctetClasses Sys2Proof.Proofs.EncoderSteps

/-! ### When a class is the one ENC is about to send -/

section Encoding

variable {s : State} {e : EncCall} (hc : s.call = .encode e)
include hc

theorem exec_maximal {p : Polarity} (hp : e.phase = .maxBatch) (hf : 0 < e.f) (hq : e.p = p) :
    exec (maximalInstr p) s = .next (s.withCall (.encode { e with
      n := min e.f 16, bs := List.replicate (min e.f 16) (maximalOctet p), phase := .write .maximal })) := by
  cases p <;> simp [maximalInstr, exec_encoding hc, hp, hf, hq, EncCall.stageMaximal]

theorem exec_remainder {p : Polarity} (hp : e.phase = .rem) (h0 : 0 < e.rm) (h : e.rm < 128) (hq : e.p = p) :
    exec (remainderInstr e.rm p) s = .next (s.withCall (.encode { e with
      n := 1, bs := [remainderOctet e.rm e.p], phase := .write .remainder })) := by
  cases p <;> simp [remainderInstr, exec_encoding hc, hp, h0, hq, Nat.mod_eq_of_lt h, EncCall.stageRemainder]

/-- A class that has an effect in an `encode` call forms a batch or the remainder octet. -/
theorem exec_encoding_next {i : Instr} {t : State} (h : exec i s = .next t) :
    t = s.withCall (.encode e.stageMaximal) ∨ t = s.withCall (.encode e.stageRemainder) := by
  rw [exec_encoding hc] at h
  cases i with
  | strobe => cases h
  | p m => cases h
  | s m => cases h
  | maxp => simp only at h; split at h <;> cases h; exact .inl rfl
  | maxs => simp only at h; split at h <;> cases h; exact .inl rfl
  | remp r => simp only at h; split at h <;> cases h; exact .inr rfl
  | rems r => simp only at h; split at h <;> cases h; exact .inr rfl

end Encoding

/-! ### The obligations -/

@[simp] theorem proceed_f (e : EncCall) : e.proceed.f = e.f := by
  rw [proceed_eq]

theorem proceed_phase_eq_maxBatch (e : EncCall) : e.proceed.phase = .maxBatch ↔ 0 < e.f := by
  obtain ⟨hf, h⟩ | ⟨hf, -, h⟩ | ⟨hf, -, h⟩ := proceed_cases e <;> simp [h, hf, EncCall.nextIndex]

/-- Settles O16: the batch is formed by the class of its polarity, and taken off F once accepted. -/
theorem maximalOctetsAreBatched : Obligations.MaximalOctetsAreBatched := by
  refine fun s e hc => ⟨exec_maximal hc, exec_maximal hc, fun rest hp hb ha => ?_⟩
  refine ⟨_, _, step_write_all hc hp hb ha, rfl, proceed_f _, ?_⟩
  rw [EncCall.afterWrite, proceed_phase_eq_maxBatch, proceed_f]

/-- Settles O17: the octet `(Rm << 1) | p`, field by field, and the class that forms it. -/
theorem remainderOctetIsFormed : Obligations.RemainderOctetIsFormed := by
  intro s e hc hp h0 h
  obtain ⟨hval, hmag, hpol, -⟩ := remainderOctet_fields e.p h
  refine ⟨remainderOctet e.rm e.p, ?_, ?_, hmag, hpol, exec_remainder hc hp h0 h, exec_remainder hc hp h0 h⟩
  · rw [hval]
    cases e.p <;> rfl
  · rw [hval]
    show 2 ≤ _
    omega

/-- Settles O18: each class has an effect under all of its conditions only. -/
theorem unexpectedSentClassIsRefused : Obligations.UnexpectedSentClassIsRefused := by
  intro s e hc
  simp only [exec_encoding hc]
  refine ⟨fun h => if_neg ?_, fun h => if_neg ?_, fun r => ⟨fun h => if_neg ?_, fun h => if_neg ?_⟩⟩ <;>
    simpa only [not_and_or, Nat.not_lt, Nat.le_zero] using h

/-- Settles O19: forming octets changes n, the octets on offer and the place. -/
theorem sentClassFrame : Obligations.SentClassFrame := by
  intro _ s t e hc h
  obtain rfl | rfl := exec_encoding_next hc h
  · exact ⟨e.stageMaximal, rfl, rfl, rfl, rfl, rfl, rfl, rfl⟩
  · exact ⟨e.stageRemainder, rfl, rfl, rfl, rfl, rfl, rfl, rfl⟩

end Sys2Proof.Proofs.SentClasses

/-! Which step the block takes: the instruction that is fetched, the calls that start, and the answers that stop a
step. -/

namespace Sys2Proof.Proofs.Steps

open Sys2Proof.Machine Sys2Proof.Safety Sys2Proof.Proofs.DecoderAnswers Sys2Proof.Proofs.EncoderSteps
open Sys2Proof.Proofs.OctetClasses

/-! ### The instruction fetched -/

theorem step_maxBatch_exec {s : State} {e : EncCall} (hc : s.call = .encode e) (hp : e.phase = .maxBatch) :
    step s = exec (maximalInstr e.p) s := by
  simp [step, fetch, fetchEncoder, hc, hp]

theorem step_rem_exec {s : State} {e : EncCall} (hc : s.call = .encode e) (hp : e.phase = .rem) :
    step s = exec (remainderInstr e.rm e.p) s := by
  simp [step, fetch, fetchEncoder, hc, hp]

/-- Settles O20: the octet at the head of RX, or the class ENC is about to send, is what `fetch` finds. -/
theorem stepRunsTheInstruction : Obligations.StepRunsTheInstruction := by
  refine ⟨fun s dl b rest i after hc ha _ hd => ?_, fun s e hc => ⟨?_, ?_, ?_, ?_⟩⟩
  · obtain rfl : decodeOctet b = i := by simpa [decode] using hd
    exact step_read_octet hc ha
  · intro hp hq
    rw [step_maxBatch_exec hc hp, hq, maximalInstr]
  · intro hp hq
    rw [step_maxBatch_exec hc hp, hq, maximalInstr]
  · intro hp hq hr
    refine ⟨BitVec.ofNat 7 e.rm, toNat_ofNat_remainder hr, ?_⟩
    rw [step_rem_exec hc hp, hq, remainderInstr]
  · intro hp hq hr
    refine ⟨BitVec.ofNat 7 e.rm, toNat_ofNat_remainder hr, ?_⟩
    rw [step_rem_exec hc hp, hq, remainderInstr]

theorem decodeTableWord_eight (w : Nat) : decodeTableWord 8 w = some (decodeOctet (tableOctet 8 w)) := rfl

theorem toRead_eq (c : Call) : ∃ dl, c.toRead = .decode dl .read := by
  cases c with
  | idle => exact ⟨0, rfl⟩
  | decode dl ph => exact ⟨dl, rfl⟩
  | encode e => exact ⟨0, rfl⟩

/-- Settles O21: the octet placed stands at the head of RX, in the READ phase. -/
theorem placedOctetRunsNext : Obligations.PlacedOctetRunsNext := by
  intro s w i hi
  obtain rfl : decodeOctet (tableOctet 8 w) = i := by simpa [decodeTableWord_eight] using hi
  obtain ⟨dl, hdl⟩ := toRead_eq s.call
  refine ⟨dl, ?_⟩
  have hc : (s.withFetchWord 8 w).call = .decode dl .read := hdl
  rw [step_read_octet (rest := s.answers) hc rfl, State.withFetchWord, hdl]
  rfl

/-! ### The deadline between 1 and 999 us -/

theorem timeOutAdmissible_subms {p : Params} {dl : Nat} (h1 : 1 ≤ dl) (h2 : dl ≤ 999) :
    timeOutAdmissible p dl = decide (p.subms ≠ .forever) := by
  rw [timeOutAdmissible, if_neg (Nat.ne_of_gt h1), if_neg (by omega)]

/-- Settles O26: in that range SUBMS is what makes `TimedOut` an answer. -/
theorem subMillisecondDeadlineFollowsParameter : Obligations.SubMillisecondDeadlineFollowsParameter := by
  intro s dl rest hc ha h1 h2
  have hm := timeOutAdmissible_subms (p := s.params) h1 h2
  exact ⟨fun h => step_wait_timedOut_refused hc ha (by simp [hm, h]),
    fun h => step_wait_timedOut hc ha (by simp [hm, h])⟩

/-! ### No answer, and an answer that is none -/

theorem step_read_stuck {s : State} {dl : Nat} (hc : s.call = .decode dl .read) (ha : s.answers = []) :
    step s = .fault .stuck := by
  simp [step, fetch, fetchOctet, rxTryRead, hc, ha]

theorem step_read_inadmissible {s : State} {dl : Nat} {rest : List Answer} (hc : s.call = .decode dl .read)
    (ha : (∃ a, s.answers = .write a :: rest) ∨ (∃ a, s.answers = .wait a :: rest)) :
    step s = .refused .inadmissibleAnswer := by
  obtain ⟨a, ha⟩ | ⟨a, ha⟩ := ha <;> simp [step, fetch, fetchOctet, rxTryRead, hc, ha]

/-- Settles O33: each of the four primitives asked with no answer listed. -/
theorem exhaustedAnswersAreStuck : Obligations.ExhaustedAnswersAreStuck := by
  rintro s ha (⟨dl, ph, hc⟩ | ⟨e, k, hc, ⟨hp, hb⟩ | hp⟩)
  · cases ph with
    | read => exact step_read_stuck hc ha
    | wait => simp [step_wait hc, decWait, waitReady_stuck ha]
  · exact step_write_stuck hc hp hb ha
  · exact step_waitWritable_stuck hc hp ha

theorem waitReady_inadmissible {m : Bool} {s : State} {rest : List Answer}
    (ha : (∃ a, s.answers = .read a :: rest) ∨ (∃ a, s.answers = .write a :: rest)) :
    waitReady m s = .inadmissible := by
  obtain ⟨a, ha⟩ | ⟨a, ha⟩ := ha <;> simp [waitReady, ha]

theorem txWrite_inadmissible {bs : List Byte} {s : State} {rest : List Answer}
    (ha : (∃ a, s.answers = .read a :: rest) ∨ (∃ a, s.answers = .wait a :: rest)) :
    txWrite bs s = .inadmissible := by
  obtain ⟨a, ha⟩ | ⟨a, ha⟩ := ha <;> simp [txWrite, ha]

/-- Settles O34: each of the four primitives, and the answers it cannot give. -/
theorem inadmissibleAnswersAreRefused : Obligations.InadmissibleAnswersAreRefused := by
  refine fun s rest => ⟨fun dl hc ha => step_read_inadmissible hc ha, fun dl hc ha => ?_,
    fun e k hc hp hb ha => step_write_inadmissible hc hp hb ?_,
    fun e k hc hp ha => step_waitWritable_inadmissible hc hp ?_⟩
  · simp [step_wait hc, decWait, waitReady_inadmissible ha.symm]
  · obtain ha | ha | ⟨n, hn, ha⟩ := ha
    · exact txWrite_inadmissible (.inl ha)
    · exact txWrite_inadmissible (.inr ha)
    · exact txWrite_written_tooMany ha hn
  · obtain ha | ha | ha := ha
    · exact waitReady_inadmissible (.inl ha)
    · exact waitReady_inadmissible (.inr ha)
    · exact waitReady_timedOut_inadmissible ha

/-! ### The start of a call -/

theorem step_idle {s : State} (hc : s.call = .idle) : step s = startCall s := by
  simp [step, fetch, hc]

theorem durationFits_iff (p : Params) (d : Nat) : durationFits p d = true ↔ ∀ w, p.durW = some w → d < 2 ^ w := by
  cases h : p.durW <;> simp [durationFits, h]

theorem step_startEncode {s : State} {ds : List Nat} {rest : List HostCall} (hc : s.call = .idle)
    (hh : s.hostCalls = .encode ds :: rest) (hd : ∀ d ∈ ds, durationFits s.params d = true) :
    step s = .next ((s.withHostCalls rest).zeroTxpos.withCall (.encode (.start ds))) := by
  have hall : ds.all (durationFits s.params) = true := List.all_eq_true.mpr hd
  simp [step_idle hc, startCall, hh, hall]

theorem step_startEncode_refused {s : State} {ds : List Nat} {rest : List HostCall} {d : Nat}
    (hc : s.call = .idle) (hh : s.hostCalls = .encode ds :: rest) (hd : d ∈ ds)
    (hwide : durationFits s.params d = false) : step s = .refused .durationTooWide := by
  have hall : ¬ ds.all (durationFits s.params) = true := fun h => by
    simp [List.all_eq_true.mp h d hd] at hwide
  simp only [step_idle hc, startCall, hh, if_neg hall]

/-- Settles O32, by `resetBlock`. -/
theorem resetInputReachesOnlyTheBlock : Obligations.ResetInputReachesOnlyTheBlock := by
  intro s rest hc hh
  simp [step_idle hc, startCall, hh, State.resetBlock, State.withHostCalls, hc]

/-- Settles O35: each invariant at the literal reset state. -/
theorem resetMeetsTheInvariants : Obligations.ResetMeetsTheInvariants :=
  ⟨rfl, rfl, rfl, ⟨rfl, rfl⟩, trivial, fun _ h => (nomatch h)⟩

/-- While a call is in progress what the host asks stays, and the call goes on with its own operand or ends. -/
theorem stepKind_keeps_call {s t : State} (hk : StepKind s t) (hc : s.call ≠ .idle) :
    t.hostCalls = s.hostCalls ∧
    (∀ dl ph, s.call = .decode dl ph → t.call = .idle ∨ ∃ ph', t.call = .decode dl ph') ∧
    (∀ e, s.call = .encode e → t.call = .idle ∨ ∃ e', t.call = .encode e' ∧ e'.durations = e.durations) := by
  -- Transition by transition: either none was in progress, or the next place of the call stands in the new state.
  cases hk <;> simp_all [decStart, decClose]

/-- Settles O31: the start of each call, and a case analysis over the transitions. -/
theorem hostCallsStart : Obligations.HostCallsStart := by
  refine ⟨fun s rest hc => ⟨fun dl hh => ?_, fun ds hh hd => ?_, fun ds w d hh hw hd hwide => ?_, fun hh => ?_⟩,
    fun s t hc hs => stepKind_keeps_call (step_kinds hs) hc⟩
  · rw [step_idle hc, startCall, hh]
    rfl
  · exact step_startEncode hc hh fun d hmem => (durationFits_iff _ d).mpr fun w hw => hd w hw d hmem
  · refine step_startEncode_refused hc hh hd ?_
    simpa [durationFits, hw] using hwide
  · rw [step_idle hc, startCall, hh]

end Sys2Proof.Proofs.Steps

/-! What a step can change: ACC and POL, the results, the octets consumed, TX and the parameters, each said once over
the transitions. -/

namespace Sys2Proof.Proofs.StepFrames

open Sys2Proof.Machine Sys2Proof.Safety Sys2Proof.Proofs.QuirkCorrector Sys2Proof.Proofs.DecoderStream
open Sys2Proof.Proofs.ReceivedClasses

/-! ### ACC and POL -/

theorem ofPolarity_ne_unset (p : Polarity) : Pol.ofPolarity p ≠ .unset := by
  cases p <;> simp [Pol.ofPolarity]

theorem ne_unset_of_run {q : Pol} {k : Polarity} (h : q.run = some k) : q ≠ .unset := by
  rintro rfl
  cases h

/-- An octet starts a run of its own length, or extends the run where the sum fits ACC (R80 to R82). -/
def AccAfterOctet (s t : State) (b : Byte) : Prop :=
  t.acc = durationOf b ∨ t.acc = s.acc + durationOf b ∧ accFits s.params t.acc = true

/-- ACC and POL stay, or the reset input clears them, or an octet is consumed in the READ phase. -/
theorem stepKind_registers {s t : State} (hk : StepKind s t) :
    (t.acc = s.acc ∧ t.pol = s.pol) ∨ (ResetsBlock s ∧ t.acc = 0) ∨
    (Reading s ∧ ∃ b, s.answers = .read (.byte b) :: t.answers ∧ t.rxTaken = s.rxTaken ++ [b] ∧
      t.pol ≠ .unset ∧ AccAfterOctet s t b) := by
  cases hk
  case reset rest hc hh => exact .inr (.inl ⟨⟨hc, rest, hh⟩, rfl⟩)
  case octetStarts dl b rest hc ha _ =>
    exact .inr (.inr ⟨⟨dl, hc⟩, b, ha, rfl, ofPolarity_ne_unset _, .inl rfl⟩)
  case octetCloses dl b rest k hc ha _ _ =>
    exact .inr (.inr ⟨⟨dl, hc⟩, b, ha, rfl, ofPolarity_ne_unset _, .inl rfl⟩)
  case octetExtends dl b rest hc ha hr hf =>
    exact .inr (.inr ⟨⟨dl, hc⟩, b, ha, rfl, ne_unset_of_run hr, .inr ⟨rfl, hf⟩⟩)
  all_goals exact .inl ⟨rfl, rfl⟩

/-- Settles O43: the durations of octets are multiples of 16, and so are their sums. -/
theorem accumulatorStaysInTicks : Obligations.AccumulatorStaysInTicks := by
  intro s t h hs
  obtain ⟨hacc, -⟩ | ⟨-, hacc⟩ | ⟨-, b, -, -, -, hacc | ⟨hacc, -⟩⟩ := stepKind_registers (step_kinds hs)
  · rw [hacc, h]
  · rw [hacc]
  · rw [hacc, durationOf_dvd]
  · have := durationOf_dvd b
    omega

/-- Settles O45: an octet leaves a run in progress, and all else but the reset input leaves POL. -/
theorem onlyResetUnsetsPolarity : Obligations.OnlyResetUnsetsPolarity := by
  intro s t hs hpol hreset
  obtain ⟨-, hsame⟩ | ⟨hr, -⟩ | ⟨-, b, -, -, hset, -⟩ := stepKind_registers (step_kinds hs)
  · rwa [hsame]
  · exact absurd hr hreset
  · exact hset

/-- Settles O46: of the three ways of `stepKind_registers` only the octet is left. -/
theorem onlyOctetsChangeTheAccumulator : Obligations.OnlyOctetsChangeTheAccumulator := by
  intro s t hs hchange hreset
  obtain ⟨hacc, hpol⟩ | ⟨hr, -⟩ | ⟨hread, b, ha, hrx, -⟩ := stepKind_registers (step_kinds hs)
  · obtain h | h := hchange
    · exact absurd hacc h
    · exact absurd hpol h
  · exact absurd hr hreset
  · exact ⟨hread, b, ha, hrx⟩

/-! ### The parameters -/

theorem stepKind_params {s t : State} (hk : StepKind s t) : t.params = s.params := by
  cases hk <;> rfl

/-- Settles O52: no transition writes the parameters. -/
theorem parametersAreFixed : Obligations.ParametersAreFixed :=
  fun _ _ hs => stepKind_params (step_kinds hs)

/-! ### The results -/

/-- A result carries no length but that of the run in progress, corrected by QC. -/
def CarriesRun (s : State) (r : Result) : Prop :=
  ∀ e, r = .event e → e.durationPort = 0 ∨ ∃ k d, e.durationPort = qc k s.acc d

/-- The results stay, or the reset input empties them, or the call in progress ends with one more. -/
theorem stepKind_results {s t : State} (hk : StepKind s t) :
    t.results = s.results ∨ (ResetsBlock s ∧ t.results = []) ∨
    ∃ r, t.results = s.results ++ [r] ∧ t.call = .idle ∧ s.call ≠ .idle ∧ CarriesRun s r := by
  have hcall : ∀ {c : Call}, s.call = c → c ≠ .idle → s.call ≠ .idle := fun h hc => h ▸ hc
  cases hk
  case reset rest hc hh => exact .inr (.inl ⟨⟨hc, rest, hh⟩, rfl⟩)
  case octetCloses dl b rest k hc _ _ _ =>
    refine .inr (.inr ⟨_, rfl, rfl, hcall hc (by simp), fun e he => .inr ⟨k, durationOf b, ?_⟩⟩)
    cases he
    exact durationPort_ofRun _ _
  case waitTimesOut dl rest hc _ _ =>
    refine .inr (.inr ⟨_, rfl, rfl, hcall hc (by simp), fun e he => .inl ?_⟩)
    cases he
    rfl
  case readFails dl rest hc _ => exact .inr (.inr ⟨_, rfl, rfl, hcall hc (by simp), fun e he => (nomatch he)⟩)
  case waitFails dl rest hc _ => exact .inr (.inr ⟨_, rfl, rfl, hcall hc (by simp), fun e he => (nomatch he)⟩)
  case returnsOk e hc _ _ => exact .inr (.inr ⟨_, rfl, rfl, hcall hc (by simp), fun e he => (nomatch he)⟩)
  case writeFails e k rest hc _ _ _ =>
    exact .inr (.inr ⟨_, rfl, rfl, hcall hc (by simp), fun e he => (nomatch he)⟩)
  case writableFails e k rest hc _ _ =>
    exact .inr (.inr ⟨_, rfl, rfl, hcall hc (by simp), fun e he => (nomatch he)⟩)
  all_goals exact .inl rfl

/-- Settles O51, by the three ways of `stepKind_results`. -/
theorem oneResultEndsTheCall : Obligations.OneResultEndsTheCall := by
  intro s t hs hreset
  obtain h | ⟨hr, -⟩ | ⟨r, h, hidle, hcall, -⟩ := stepKind_results (step_kinds hs)
  · exact .inl h
  · exact absurd hr hreset
  · exact .inr ⟨r, h, hidle, hcall⟩

/-- R100, R101: QC reports the measured length, the override or 1. -/
theorem qc_lt {k : Polarity} {a d bound : Nat} (ha : a < bound) (hbound : 100000 < bound) : qc k a d < bound := by
  rw [(quirkCorrectorFunction k a d).1]
  split <;> [skip; split] <;> omega

/-- R12: 17 bits hold every octet's duration and the override. -/
theorem lt_two_pow_of_17_le {w n : Nat} (hw : 17 ≤ w) (hn : n ≤ 100000) : n < 2 ^ w :=
  calc n < 2 ^ 17 := by omega
    _ ≤ 2 ^ w := Nat.pow_le_pow_right (by decide) hw

theorem durationsBelow_append {bound : Nat} {rs : List Result} {r : Result} (h : durationsBelow bound rs)
    (hr : ∀ e, r = .event e → e.durationPort < bound) : durationsBelow bound (rs ++ [r]) := by
  intro r' hmem e he
  obtain hmem | hmem := List.mem_append.mp hmem
  · exact h r' hmem e he
  · obtain rfl := List.mem_singleton.mp hmem
    exact hr e he

/-- Settles O44: an octet's duration fits, EXTEND checks the sum, and QC reports nothing longer than the run or its
override. -/
theorem finiteWidthIsKept : Obligations.FiniteWidthIsKept := by
  intro s t h hs w hw
  have hk := step_kinds hs
  rw [stepKind_params hk] at hw
  obtain ⟨h17, hacc, hresults⟩ := h w hw
  refine ⟨h17, ?_, ?_⟩
  · obtain ⟨h, -⟩ | ⟨-, h⟩ | ⟨-, b, -, -, -, h | ⟨-, hfits⟩⟩ := stepKind_registers hk
    · rwa [h]
    · rw [h]; exact Nat.two_pow_pos w
    · rw [h]; exact lt_two_pow_of_17_le h17 ((durationOf_le b).trans (by decide))
    · exact (accFits_iff_of_width hw _).mp hfits
  · obtain h | ⟨-, h⟩ | ⟨r, h, -, -, hr⟩ := stepKind_results hk <;> rw [h]
    · exact hresults
    · exact fun r hmem => (nomatch hmem)
    · refine durationsBelow_append hresults fun e he => ?_
      obtain h0 | ⟨k, d, hqc⟩ := hr e he
      · rw [h0]; exact Nat.two_pow_pos w
      · rw [hqc]; exact qc_lt hacc (lt_two_pow_of_17_le h17 (Nat.le_refl _))

/-! ### The octets consumed, and TX -/

/-- A step consumes the octet at the head of the answers, or takes at most one other answer and no octet. -/
theorem octetsAreConsumedInOrder_of_stepKind {s t : State} (hk : StepKind s t) (hreset : ¬ ResetsBlock s) :
    (t.answers = s.answers ∨ ∃ a, s.answers = a :: t.answers) ∧
    (t.rxTaken = s.rxTaken ∧ t.rxpos = s.rxpos ∧ (∀ b, s.answers = .read (.byte b) :: t.answers → False) ∨
      Reading s ∧
        ∃ b, s.answers = .read (.byte b) :: t.answers ∧ t.rxTaken = s.rxTaken ++ [b] ∧ t.rxpos = s.rxpos + 1) := by
  cases hk
  case reset rest hc hh => exact absurd ⟨hc, rest, hh⟩ hreset
  case octetStarts dl b rest hc ha _ => exact ⟨.inr ⟨_, ha⟩, .inr ⟨⟨dl, hc⟩, b, ha, rfl, rfl⟩⟩
  case octetCloses dl b rest k hc ha _ _ => exact ⟨.inr ⟨_, ha⟩, .inr ⟨⟨dl, hc⟩, b, ha, rfl, rfl⟩⟩
  case octetExtends dl b rest hc ha _ _ => exact ⟨.inr ⟨_, ha⟩, .inr ⟨⟨dl, hc⟩, b, ha, rfl, rfl⟩⟩
  case writeBlocks e k rest hc _ _ ha => obtain ha | ha := ha <;> simp [ha]
  all_goals simp_all

/-- Settles O49, transition by transition. -/
theorem octetsAreConsumedInOrder : Obligations.OctetsAreConsumedInOrder :=
  fun _ _ hs => octetsAreConsumedInOrder_of_stepKind (step_kinds hs)

/-- Settles O50: of all transitions, only a `Written` sends octets. -/
theorem txIsAppendOnly : Obligations.TxIsAppendOnly := by
  intro s t hs
  cases step_kinds hs
  case written e k n rest hc _ _ _ h1 h2 => exact .inr ⟨e, n, hc, h1, h2, rfl⟩
  all_goals exact .inl rfl

end Sys2Proof.Proofs.StepFrames

/-! Ownership of the registers and streams (10_state.md section 2, 20_memory.md section 1): a step of an `encode` call
commutes with any change of ACC and POL, a step of a `decode_next` call with any change of TX. -/

namespace Sys2Proof.Proofs.Noninterference

open Sys2Proof.Machine Sys2Proof.Safety Sys2Proof.Proofs.OctetDispatch Sys2Proof.Proofs.ReceivedClasses
open Sys2Proof.Proofs.DecoderAnswers Sys2Proof.Proofs.EncoderSteps

/-! ### Primitives under a change of the state -/

/-- A change of the state after an answer, where there is one. -/
def mapAsked {α : Type} (f : State → State) : Asked α → Asked α
  | .answered a s => .answered a (f s)
  | .stuck => .stuck
  | .inadmissible => .inadmissible

theorem andThen_mapAsked {α : Type} {f : State → State} {k : α → State → Out}
    (h : ∀ a s, k a (f s) = mapNext f (k a s)) (x : Asked α) :
    (mapAsked f x).andThen k = mapNext f (x.andThen k) := by
  cases x with
  | answered a s => exact h a s
  | stuck => rfl
  | inadmissible => rfl

/-- The wait moves no data (R39): it commutes with any change that leaves the answers alone. -/
theorem waitReady_map {f : State → State} (ha : ∀ s, (f s).answers = s.answers)
    (hw : ∀ s as, (f s).withAnswers as = f (s.withAnswers as)) (m : Bool) (s : State) :
    waitReady m (f s) = mapAsked f (waitReady m s) := by
  unfold waitReady
  rw [ha]
  split
  case h_2 => split <;> simp [mapAsked, hw]
  all_goals simp [mapAsked, hw]

theorem txWrite_withDec (bs : List Byte) (s : State) (a : Nat) (q : Pol) :
    txWrite bs (s.withDec a q) = mapAsked (·.withDec a q) (txWrite bs s) := by
  unfold txWrite
  rw [State.withDec_answers]
  split
  case h_2 => split <;> [skip; split] <;> rfl
  all_goals rfl

/-! ### An `encode` call and the accumulator -/

section Encode

variable (e : EncCall) (k : SendKind) (s : State) (a : Nat) (q : Pol)

theorem encSeq_withDec : encSeq e (s.withDec a q) = mapNext (·.withDec a q) (encSeq e s) := by
  unfold encSeq
  split <;> rfl

theorem encWrite_withDec : encWrite k e (s.withDec a q) = mapNext (·.withDec a q) (encWrite k e s) := by
  unfold encWrite
  split
  · rfl
  · rw [txWrite_withDec]
    exact andThen_mapAsked (fun x _ => by cases x <;> rfl) _

theorem encWaitWritable_withDec :
    encWaitWritable k e (s.withDec a q) = mapNext (·.withDec a q) (encWaitWritable k e s) := by
  unfold encWaitWritable
  rw [waitReady_map (f := (·.withDec a q)) (fun _ => rfl) (fun _ _ => rfl)]
  exact andThen_mapAsked (fun x _ => by cases x <;> rfl) _

end Encode

theorem step_encode_withDec {s : State} {e : EncCall} (hc : s.call = .encode e) (a : Nat) (q : Pol) :
    step (s.withDec a q) = mapNext (·.withDec a q) (step s) := by
  have hc' : (s.withDec a q).call = .encode e := hc
  cases hp : e.phase with
  | seq => simpa only [step, fetch, fetchEncoder, hc, hc', hp] using encSeq_withDec e s a q
  | maxBatch =>
    rw [step_maxBatch hc hp, step_maxBatch hc' hp]
    split <;> rfl
  | rem =>
    rw [step_rem hc hp, step_rem hc' hp]
    split <;> rfl
  | write k => simpa only [step, fetch, fetchEncoder, hc, hc', hp] using encWrite_withDec e k s a q
  | waitWritable k => simpa only [step, fetch, fetchEncoder, hc, hc', hp] using encWaitWritable_withDec e k s a q

/-- Settles O47, phase by phase. -/
theorem encoderIgnoresTheAccumulator : Obligations.EncoderIgnoresTheAccumulator :=
  fun _ _ a q hc => step_encode_withDec hc a q

/-! ### A `decode_next` call and TX -/

/-- Any octets sent, and any TXPOS. -/
def withTx (x : List Byte) (n : Nat) (s : State) : State := { s with tx := x, txpos := n }

section Decode

variable (x : List Byte) (n : Nat) (s : State)

theorem rxTryRead_withTx : rxTryRead (withTx x n s) = mapAsked (withTx x n) (rxTryRead s) := by
  have ha : (withTx x n s).answers = s.answers := rfl
  unfold rxTryRead
  rw [ha]
  split <;> rfl

theorem decExtend_withTx (d : Nat) : decExtend d (withTx x n s) = mapNext (withTx x n) (decExtend d s) := by
  by_cases h : accFits s.params (s.acc + d) = true
  · rw [decExtend_of_fits h, decExtend_of_fits (s := withTx x n s) h]
    rfl
  · rw [decExtend_of_not_fits h, decExtend_of_not_fits (s := withTx x n s) h]
    rfl

theorem decOperands_withTx (p : Polarity) (d : Nat) :
    decOperands p d (withTx x n s) = mapNext (withTx x n) (decOperands p d s) := by
  have hpol : (withTx x n s).pol = s.pol := rfl
  unfold decOperands
  rw [hpol]
  split
  · rfl
  · split
    · rfl
    · exact decExtend_withTx x n s d

theorem exec_decodeOctet_withTx {b : Byte} {dl : Nat} (hc : s.call = .decode dl .read) :
    exec (decodeOctet b) (withTx x n s) = mapNext (withTx x n) (exec (decodeOctet b) s) := by
  have hc' : (withTx x n s).call = .decode dl .read := hc
  rw [exec_decodeOctet hc, exec_decodeOctet hc', decOperands_withTx]

theorem decWait_withTx (dl : Nat) : decWait dl (withTx x n s) = mapNext (withTx x n) (decWait dl s) := by
  unfold decWait
  rw [waitReady_map (f := withTx x n) (fun _ => rfl) (fun _ _ => rfl)]
  exact andThen_mapAsked (fun y _ => by cases y <;> rfl) _

theorem step_decode_withTx {dl : Nat} {ph : DecPhase} (hc : s.call = .decode dl ph) :
    step (withTx x n s) = mapNext (withTx x n) (step s) := by
  have hc' : (withTx x n s).call = .decode dl ph := hc
  cases ph with
  | wait => rw [step_wait hc, step_wait hc', decWait_withTx]
  | read =>
    simp only [step, fetch, hc, hc', fetchOctet, rxTryRead_withTx]
    cases hr : rxTryRead s with
    | stuck => rfl
    | inadmissible => rfl
    | answered y s' =>
      obtain ⟨rest, -, ⟨b, rfl, rfl⟩ | ⟨rfl | rfl, -⟩⟩ := rxTryRead_answered hr
      · exact exec_decodeOctet_withTx x n _ (dl := dl) hc
      · rfl
      · rfl

end Decode

/-- Settles O48, by the primitive each phase asks. -/
theorem decoderIgnoresTx : Obligations.DecoderIgnoresTx :=
  fun s _ _ x n hc => step_decode_withTx x n s hc

end Sys2Proof.Proofs.Noninterference

/-! The laws over many octets: octets of one polarity add up in the state machine of R73 and in the block, and what one
encoded duration adds up to. -/

namespace Sys2Proof.Proofs.RunLaw

open Sys2Proof.Machine Sys2Proof.Safety Sys2Proof.Proofs.OctetClasses Sys2Proof.Proofs.DecoderStream
open Sys2Proof.Proofs.ReadOctet Sys2Proof.Proofs.OctetDispatch

/-! ### Octets of one polarity in the state machine -/

/-- The microseconds a sequence of octets stands for. -/
def totalDuration (bs : List Byte) : Nat := (bs.map durationOf).sum

@[simp] theorem totalDuration_nil : totalDuration [] = 0 := rfl

@[simp] theorem totalDuration_cons (b : Byte) (bs : List Byte) :
    totalDuration (b :: bs) = durationOf b + totalDuration bs := by
  simp [totalDuration]

@[simp] theorem totalDuration_append (as bs : List Byte) :
    totalDuration (as ++ bs) = totalDuration as + totalDuration bs := by
  simp [totalDuration]

@[simp] theorem totalDuration_replicate (n : Nat) (b : Byte) :
    totalDuration (List.replicate n b) = n * durationOf b := by
  simp [totalDuration]

/-- R78: eight times the sum of the masked octets. -/
theorem totalDuration_eq (bs : List Byte) :
    totalDuration bs = 8 * (bs.map fun b => (b &&& 0xFE#8).toNat).sum := by
  rw [Nat.mul_comm]
  exact List.sum_map_mul_right bs _ _

theorem foldl_feed_same {k : Polarity} {bs : List Byte} (h : ∀ b ∈ bs, polarityOf b = k) (n : Nat)
    (es : List Event) :
    bs.foldl DecShape.feed (.accumulating k n, es) = (.accumulating k (n + totalDuration bs), es) := by
  induction bs generalizing n with
  | nil => rfl
  | cons b bs ih =>
    obtain ⟨hb, hbs⟩ := List.forall_mem_cons.mp h
    rw [List.foldl_cons, feed_same es hb, ih hbs, totalDuration_cons, Nat.add_assoc]

theorem decodeStream_same {k : Polarity} {bs : List Byte} (h : ∀ b ∈ bs, polarityOf b = k) (hne : bs ≠ []) :
    decodeStream bs = (.accumulating k (totalDuration bs), []) := by
  obtain ⟨b, bs, rfl⟩ := List.exists_cons_of_ne_nil hne
  obtain ⟨rfl, hbs⟩ := List.forall_mem_cons.mp h
  rw [decodeStream, List.foldl_cons, feed_empty, foldl_feed_same hbs, totalDuration_cons]

/-! ### One encoded duration -/

theorem polarityOf_mem_encOne {d : Nat} {p : Polarity} {b : Byte} (h : b ∈ encOne d p) : polarityOf b = p := by
  obtain rfl | ⟨-, rfl⟩ := mem_encOne h
  · exact polarityOf_maximalOctet p
  · obtain ⟨-, -, hp, -⟩ := remainderOctet_fields p (remainder_lt (ticks d))
    exact hp

theorem length_encOne (d : Nat) (p : Polarity) :
    (encOne d p).length = ticks d / 128 + (if 0 < ticks d % 128 then 1 else 0) := by
  rw [encOne, List.length_append, List.length_replicate, fullUnits_eq, remainder_eq, remainderPart]
  split <;> rfl

theorem totalDuration_remainderPart {rm : Nat} (p : Polarity) (h : rm < 128) :
    totalDuration (remainderPart rm p) = 16 * rm := by
  obtain ⟨-, -, -, hd⟩ := remainderOctet_fields p h
  unfold remainderPart
  split
  · simp [hd]
  · simp only [totalDuration_nil]
    omega

/-- R120, R121: a maximal octet stands for 127 of its 128 ticks. -/
theorem totalDuration_encOne (d : Nat) (p : Polarity) :
    totalDuration (encOne d p) = 16 * (ticks d - ticks d / 128) := by
  rw [encOne, totalDuration_append, totalDuration_replicate, durationOf_maximalOctet,
    totalDuration_remainderPart p (remainder_lt _), fullUnits_eq, remainder_eq]
  omega

/-- Settles O54: the octets of a duration have one polarity, so a fresh decoder adds them up. -/
theorem decodedLengthOfAnEncodedDuration : Obligations.DecodedLengthOfAnEncodedDuration := by
  intro d p
  have hlen := length_encOne d p
  have htotal := totalDuration_encOne d p
  rw [ticks_eq] at hlen htotal
  refine ⟨hlen, fun hd => ?_, fun hd => ⟨totalDuration (encOne d p), ?_, htotal, ?_, ?_⟩⟩
  · have hzero : (d + 8) / 16 = 0 := by omega
    rw [hzero] at hlen
    exact List.length_eq_zero_iff.mp hlen
  · refine decodeStream_same (fun b hb => polarityOf_mem_encOne hb) fun hnil => ?_
    rw [hnil, totalDuration_nil] at htotal
    omega
  · omega
  · omega

/-! ### A run in the block -/

theorem run_succ {s t : State} (h : step s = .next t) (n : Nat) :
    Host.Core.run core (n + 1) s = Host.Core.run core n t := by
  have hs : core.step s = .next t := h
  simp only [Host.Core.run, hs]

/-- Octets of the run's own polarity and one of the other, from a run in progress: the run is extended octet by octet,
and closed by the last. -/
theorem run_closes {s : State} {dl : Nat} {k : Polarity} {bs : List Byte} {c : Byte} {rest : List Answer}
    (hc : s.call = .decode dl .read) (hw : s.params.accW = none) (hk : s.pol.run = some k)
    (hbs : ∀ b ∈ bs, polarityOf b = k) (hclose : polarityOf c ≠ k)
    (ha : s.answers = byteAnswers (bs ++ [c]) ++ rest) :
    ∃ t : State, Host.Core.run core (bs.length + 1) s = Host.Outcome.next t ∧
      t.results = s.results ++ [.event (.ofRun k (qc k (s.acc + totalDuration bs) (durationOf c)))] ∧
      t.acc = durationOf c ∧ t.pol.run = some (polarityOf c) ∧ t.call = .idle ∧ t.answers = rest := by
  induction bs generalizing s with
  | nil =>
    have hs := step_read_byte hc (b := c) (rest := rest) ha
    rw [decOperands_of_ne (by simpa using hk) hclose] at hs
    exact ⟨_, run_succ hs 0, rfl, rfl, run_ofPolarity _, rfl, rfl⟩
  | cons b bs ih =>
    obtain ⟨rfl, hbs⟩ := List.forall_mem_cons.mp hbs
    have hs := step_read_byte hc (b := b) (rest := byteAnswers (bs ++ [c]) ++ rest) ha
    rw [decOperands_of_same (by simpa using hk), decExtend_of_fits (accFits_of_unbounded (by simpa using hw) _)] at hs
    obtain ⟨t, hrun, hres, h⟩ := ih (s := { (s.withAnswers (byteAnswers (bs ++ [c]) ++ rest)).takeOctet b with
      acc := s.acc + durationOf b }) hc hw hk hbs rfl
    refine ⟨t, (run_succ hs _).trans hrun, ?_, h⟩
    rw [hres, totalDuration_cons, Nat.add_assoc]
    rfl

/-- Settles O53: with no run the first octet starts one, and from a run in progress the octets close it. -/
theorem runGivesExactlyOneEvent : Obligations.RunGivesExactlyOneEvent := by
  intro s dl k held bs c rest hc hw hstart hbs hclose ha
  rw [← totalDuration_eq]
  obtain ⟨hp, rfl, hne⟩ | ⟨hk, rfl⟩ := hstart
  · obtain ⟨b, bs, rfl⟩ := List.exists_cons_of_ne_nil hne
    obtain ⟨rfl, hbs⟩ := List.forall_mem_cons.mp hbs
    have hs := step_read_byte hc (b := b) (rest := byteAnswers (bs ++ [c]) ++ rest) ha
    rw [decOperands_of_no_run (by simp [hp, Pol.run])] at hs
    obtain ⟨t, hrun, hres, h⟩ := run_closes (rest := rest) (s := decStart (polarityOf b) (durationOf b)
      ((s.withAnswers (byteAnswers (bs ++ [c]) ++ rest)).takeOctet b)) hc hw (run_ofPolarity _) hbs hclose rfl
    refine ⟨t, (run_succ hs _).trans hrun, ?_, h⟩
    rw [hres, Nat.zero_add, totalDuration_cons]
    rfl
  · exact run_closes hc hw hk hbs hclose ha

end Sys2Proof.Proofs.RunLaw

/-! Every `encode` call can complete: in each place of the call some answer takes the call a step nearer to its end. -/

namespace Sys2Proof.Proofs.EncoderProgress

open Sys2Proof.Machine Sys2Proof.Safety Sys2Proof.Proofs.DecoderAnswers Sys2Proof.Proofs.EncoderSteps
open Sys2Proof.Proofs.EncoderStream Sys2Proof.Proofs.RunLaw Sys2Proof.Proofs.Steps

/-! ### How far a call is from its end -/

/-- The steps of the current duration that send nothing, still to be taken. -/
def phaseRank : EncPhase → Nat
  | .seq => 2
  | .maxBatch => 1
  | .rem => 1
  | .write _ => 0
  | .waitWritable _ => 1

theorem phaseRank_le (ph : EncPhase) : phaseRank ph ≤ 2 := by
  cases ph <;> simp [phaseRank]

/-- A bound on the steps a call takes where every write is accepted in full. -/
def distance (e : EncCall) : Nat :=
  4 * (pendingOctets e).length + (e.durations.length - e.i) + phaseRank e.phase

theorem i_le_proceed_i (e : EncCall) : e.i ≤ e.proceed.i := by
  obtain ⟨-, h⟩ | ⟨-, -, h⟩ | ⟨-, -, h⟩ := proceed_cases e <;> rw [h]
  exact Nat.le_succ e.i

theorem i_le_afterWrite_i (e : EncCall) (k : SendKind) : e.i ≤ (e.afterWrite k).i := by
  cases k with
  | maximal => exact i_le_proceed_i e.batchSent
  | remainder => exact Nat.le_succ e.i

/-- Loading a duration leaves the head of the loop, or uses up an index. -/
theorem distance_load_lt {e : EncCall} {d : Nat} (hp : e.phase = .seq) (hd : e.durations[e.i]? = some d) :
    distance (e.load d) < distance e := by
  obtain ⟨hi, -⟩ := List.getElem?_eq_some_iff.mp hd
  rw [distance, distance, pendingOctets_load hp hd, load_durations, hp, EncCall.load]
  obtain ⟨-, h⟩ | ⟨-, -, h⟩ | ⟨-, -, h⟩ := proceed_cases
    { e with p := polarityOfIndex e.i, t := ticks d, f := fullUnits (ticks d), rm := remainder (ticks d) } <;>
    rw [h] <;> simp only [EncCall.nextIndex, phaseRank] <;> omega

/-- Octets accepted count for more than the steps of the next duration's start. -/
theorem distance_lt_of_sends {e e' : EncCall} {x : List Byte} (h : Continues e x e') (hx : x ≠ [])
    (hi : e.i ≤ e'.i) : distance e' < distance e := by
  obtain ⟨hpending, -, hds⟩ := h
  have hlen := congrArg List.length hpending
  rw [List.length_append] at hlen
  have hpos : 0 < x.length := List.length_pos_iff.mpr hx
  have hrank := phaseRank_le e'.phase
  rw [distance, distance, hds]
  omega

/-- A step that sends nothing, at the same index, goes on in the order of the phases. -/
theorem distance_lt_of_phase {e e' : EncCall} (h : Continues e [] e') (hi : e'.i = e.i)
    (hrank : phaseRank e'.phase < phaseRank e.phase) : distance e' < distance e := by
  obtain ⟨hpending, -, hds⟩ := h
  rw [List.nil_append] at hpending
  rw [distance, distance, hds, hpending, hi]
  omega

/-! ### One step nearer -/

/-- With the answers `pre` first, the step sends `x` and goes on as `e'`, nearer to its end. -/
def Nearer (s : State) (e : EncCall) (pre : List Answer) (x : List Byte) (e' : EncCall) : Prop :=
  (∀ as, step (s.withAnswers (pre ++ as)) = .next (((s.sendOctets x).withCall (.encode e')).withAnswers as)) ∧
    Continues e x e' ∧ distance e' < distance e

theorem sendOctets_nil (s : State) : s.sendOctets [] = s := by
  simp [State.sendOctets]

/-- Every place of a call that meets the invariant has such answers, but the one where ok is returned. -/
theorem exists_nearer {s : State} {e : EncCall} (hc : s.call = .encode e) (h : PhaseInv e) :
    ((∀ as, step (s.withAnswers as) = .next ((s.withAnswers as).finish .ok)) ∧ pendingOctets e = []) ∨
    ∃ pre x e', Nearer s e pre x e' := by
  have hca : ∀ as, (s.withAnswers as).call = .encode e := fun _ => hc
  cases hp : e.phase with
  | seq =>
    cases hd : e.durations[e.i]? with
    | none => exact .inl ⟨fun as => step_seq_ok (hca as) hp hd, pendingOctets_of_no_duration hp hd⟩
    | some d =>
      refine .inr ⟨[], [], e.load d, fun as => ?_, continues_load hp hd, distance_load_lt hp hd⟩
      rw [sendOctets_nil]
      exact step_seq_load (hca as) hp hd
  | maxBatch =>
    obtain ⟨-, hf⟩ : Loaded e ∧ 0 < e.f := by simpa only [PhaseInv, hp] using h
    have hcont := continues_stageMaximal hp h
    refine .inr ⟨[], [], e.stageMaximal, fun as => ?_, hcont,
      distance_lt_of_phase hcont rfl (by simp [hp, phaseRank, EncCall.stageMaximal])⟩
    rw [sendOctets_nil, step_maxBatch (hca _) hp, if_pos hf]
    rfl
  | rem =>
    obtain ⟨hl, -, hr⟩ : Loaded e ∧ e.f = 0 ∧ 0 < e.rm := by simpa only [PhaseInv, hp] using h
    have hcont := continues_stageRemainder hp hr h
    refine .inr ⟨[], [], e.stageRemainder, fun as => ?_, hcont,
      distance_lt_of_phase hcont rfl (by simp [hp, phaseRank, EncCall.stageRemainder])⟩
    rw [sendOctets_nil, step_rem (hca _) hp, if_pos ⟨hr, loaded_rm_lt hl⟩]
    rfl
  | write k =>
    obtain ⟨-, hb, -⟩ := offering_of_phaseInv (.inl hp) h
    have hcont := continues_accepted e.bs.length hp h
    rw [List.take_length, accepted_all k (Nat.le_refl _)] at hcont
    refine .inr ⟨[.write (.written e.bs.length)], e.bs, { e with bs := [] }.afterWrite k, fun as => ?_, hcont,
      distance_lt_of_sends hcont hb (i_le_afterWrite_i { e with bs := [] } k)⟩
    exact step_write_all (hca _) hp hb rfl
  | waitWritable k =>
    have hcont := continues_withPhase (.inr hp) (.inl rfl) h
    refine .inr ⟨[.wait .ready], [], { e with phase := .write k }, fun as => ?_, hcont,
      distance_lt_of_phase hcont rfl (by simp [hp, phaseRank])⟩
    rw [sendOctets_nil]
    exact step_waitWritable_ready (hca _) hp rfl

/-! ### To the end of the call -/

/-- For some answers the call in progress returns ok with the octets `x` sent, ACC, POL and the host's requests as
they were. -/
def Completes (s : State) (x : List Byte) : Prop :=
  ∃ (as : List Answer) (k : Nat) (t : State), Host.Core.run core k (s.withAnswers as) = Host.Outcome.next t ∧
    t.tx = s.tx ++ x ∧ t.results = s.results ++ [.ok] ∧ t.call = .idle ∧ t.hostCalls = s.hostCalls ∧
    t.acc = s.acc ∧ t.pol = s.pol

theorem completes_of_nearer {s : State} {e e' : EncCall} {pre : List Answer} {x y : List Byte}
    (h : Nearer s e pre x e') (hy : Completes ((s.sendOctets x).withCall (.encode e')) y) : Completes s (x ++ y) := by
  obtain ⟨hstep, -⟩ := h
  obtain ⟨as, k, t, hrun, htx, hframe⟩ := hy
  refine ⟨pre ++ as, k + 1, t, (run_succ (hstep as) k).trans hrun, ?_, hframe⟩
  rw [htx, ← List.append_assoc]
  rfl

theorem completes_of_phaseInv {s : State} {e : EncCall} (hc : s.call = .encode e) (h : PhaseInv e) :
    Completes s (pendingOctets e) := by
  induction hn : distance e using Nat.strong_induction_on generalizing s e with
  | _ n ih =>
    subst hn
    obtain ⟨hok, hnone⟩ | ⟨pre, x, e', hnear⟩ := exists_nearer hc h
    · rw [hnone]
      exact ⟨[], 1, _, run_succ (hok []) 0, (List.append_nil _).symm, rfl, rfl, rfl, rfl, rfl⟩
    · have ⟨_, ⟨hpending, hphase, _⟩, hlt⟩ := hnear
      rw [← hpending]
      exact completes_of_nearer hnear (ih _ hlt rfl hphase rfl)

/-- Settles O55: the call starts with its whole stream pending, and comes nearer to its end step by step. -/
theorem everyEncodeCallCanComplete : Obligations.EveryEncodeCallCanComplete := by
  intro s ds rest hc hh hfits
  obtain ⟨as, k, t, hrun, h⟩ := completes_of_phaseInv (e := .start ds)
    (s := (s.withHostCalls rest).zeroTxpos.withCall (.encode (.start ds))) rfl trivial
  have hstart : step (s.withAnswers as) =
      .next (((s.withHostCalls rest).zeroTxpos.withCall (.encode (.start ds))).withAnswers as) :=
    step_startEncode (s := s.withAnswers as) hc hh hfits
  exact ⟨as, k + 1, t, (run_succ hstart k).trans hrun, h⟩

end Sys2Proof.Proofs.EncoderProgress
